-- ==== Sys2Proof/Word.lean ====
section
/-! DEFINITION. The value types every part of the core computes on: a byte and a word of four bytes
(00_scope.md R7, 10_state.md R14 and R16). -/

namespace Sys2Proof

/-- A byte: an unsigned 8-bit value, bit 0 least significant (R9, R14). -/
abbrev Byte := BitVec 8

/-- A word: an ordered sequence of exactly four bytes, `b0` the byte with the lowest index (R16).
The same four bytes, read from row 0 down, are one column of a cipher State (R12, R35 (c)). -/
structure Word where
  b0 : Byte
  b1 : Byte
  b2 : Byte
  b3 : Byte
deriving DecidableEq, Repr

/-- The word of four zero bytes. -/
def Word.zero : Word := ⟨0, 0, 0, 0⟩

/-- Word xor is byte-wise (44_key_schedule.md R100). -/
def Word.xor (a b : Word) : Word := ⟨a.b0 ^^^ b.b0, a.b1 ^^^ b.b1, a.b2 ^^^ b.b2, a.b3 ^^^ b.b3⟩

/-- The bytes of a word, `w[0]` first (R16). -/
def Word.bytes (w : Word) : List Byte := [w.b0, w.b1, w.b2, w.b3]

end Sys2Proof
end

