-- ==== Sys2Proof/Config.lean ====
section
/-! DEFINITION. The two parameters the source leaves open (00_scope.md R8). There is no free value:
93_implementation_defined.md says of this core that no computed value is left open. -/

namespace Sys2Proof

/-- The parameters of one core (R8). They are fixed for a machine: no event and no command changes
them. The model carries them in its state, so a claim about every state is a claim about every value
of the parameters (log entry 3). -/
structure Config where
  /-- `MAX_MSG_BYTES`: the largest input payload the core accepts; `none` is "unbounded" (R8, D18). -/
  maxMsgBytes : Option Nat
  /-- `INSTR`: whether the instrumentation hook (the trace bit and RDRK) is present (R8, D14). -/
  instr : Bool
deriving DecidableEq, Repr

/-- R8's defaults: `MAX_MSG_BYTES` unbounded, `INSTR` true. -/
def Config.default : Config := ⟨none, true⟩

end Sys2Proof
end

