-- ==== Sys2Proof/Syntax.lean ====
section
/-! DEFINITION. The commands of `AESC-CMD v1`: one constructor for each of the 29 rows of the opcode
map (30_encoding.md R51). -/

namespace Sys2Proof

/-- A command, as its command word selects it (R47). The operands of a byte, word or block command
travel in the input payload and are no part of the word (R52, R56); `idx` is the field IDX (R48) and
`tr` the field TR (R49). -/
inductive Instr where
  /-- GF(2^8) multiply, 41_gf_arith.md R65. -/
  | gfmul
  /-- Multiply by 2, R66. -/
  | xt2
  /-- Multiply by 3, R67. -/
  | xt3
  /-- Multiply by 9, R68. -/
  | xt9
  /-- Multiply by 11, R69. -/
  | xt11
  /-- Multiply by 13, R70. -/
  | xt13
  /-- Multiply by 14, R71. -/
  | xt14
  /-- S-box lookup, 42_constants.md R78. -/
  | sbox
  /-- Inverse S-box lookup, R79. -/
  | isbox
  /-- Round-constant lookup, R80. -/
  | rcon (idx : BitVec 4)
  /-- Load the stepping State, 43_round_transforms.md R89. -/
  | ldst
  /-- Read the stepping State, R90. -/
  | rdst
  /-- SubBytes on ST, R91. -/
  | subb
  /-- InvSubBytes on ST, R92. -/
  | isubb
  /-- ShiftRows on ST, R93. -/
  | shr
  /-- InvShiftRows on ST, R94. -/
  | ishr
  /-- MixColumns on ST, R95. -/
  | mixc
  /-- InvMixColumns on ST, R96. -/
  | imixc
  /-- AddRoundKey of `RK[idx]` into ST, R97. -/
  | addrk (idx : BitVec 4)
  /-- RotWord, 44_key_schedule.md R105. -/
  | rotw
  /-- SubWord, R106. -/
  | subw
  /-- Load a key and expand it, R107. -/
  | setkey
  /-- Read one round key (instrumentation), R108. -/
  | rdrk (idx : BitVec 4)
  /-- Encrypt one block, 45_block_cipher.md R116. -/
  | encb (tr : Bool)
  /-- Decrypt one block, R117. -/
  | decb (tr : Bool)
  /-- Pad a byte sequence, 46_ecb_stream.md R125. -/
  | pad
  /-- Remove padding, R126. -/
  | unpad
  /-- ECB-encrypt a byte sequence, R127. -/
  | ecbe
  /-- ECB-decrypt a byte sequence, R128. -/
  | ecbd
deriving DecidableEq, Repr

end Sys2Proof
end

