-- ==== Sys2Proof/WellFormed.lean ====
section
/-! DEFINITION. Which commands are legal: the conditions of 30_encoding.md R50 on IDX, TR and INSTR. -/

namespace Sys2Proof

/-- IDX of RCON is in 1..14 (R48, R50). -/
def rconIndexLegal (idx : BitVec 4) : Bool := decide (1 ≤ idx.toNat) && decide (idx.toNat ≤ 14)

/-- IDX of ADDRK and RDRK is in 0..14 (R48, R50). -/
def keyIndexLegal (idx : BitVec 4) : Bool := decide (idx.toNat ≤ 14)

/-- TR = 1 needs `INSTR` (R49, R50). -/
def traceLegal (c : Config) (tr : Bool) : Bool := !tr || c.instr

/-- The decode check of R50, on a command whose OPC is assigned and whose RSV is 0. -/
def Instr.wf (c : Config) : Instr → Bool
  | .rcon idx => rconIndexLegal idx
  | .addrk idx => keyIndexLegal idx
  | .rdrk idx => keyIndexLegal idx && c.instr
  | .encb tr => traceLegal c tr
  | .decb tr => traceLegal c tr
  | .gfmul => true
  | .xt2 => true
  | .xt3 => true
  | .xt9 => true
  | .xt11 => true
  | .xt13 => true
  | .xt14 => true
  | .sbox => true
  | .isbox => true
  | .ldst => true
  | .rdst => true
  | .subb => true
  | .isubb => true
  | .shr => true
  | .ishr => true
  | .mixc => true
  | .imixc => true
  | .rotw => true
  | .subw => true
  | .setkey => true
  | .pad => true
  | .unpad => true
  | .ecbe => true
  | .ecbd => true

end Sys2Proof
end

