-- ==== Sys2Proof/Decode.lean ====
section
/-! DEFINITION. From a 32-bit command word to a command or a named rejection, and back
(30_encoding.md R46 to R51, R53, R54, R57). -/

namespace Sys2Proof

/-- Why a command word is illegal (R50, R53, R54, R137). Each ends with the same status,
ILLEGAL_COMMAND. -/
inductive DecodeError where
  /-- OPC is none of the 29 assigned values (R53). -/
  | unassignedOpcode
  /-- RSV is not 0 (R54). -/
  | reservedBits
  /-- IDX is outside what R48 allows for this OPC. -/
  | indexOutOfRange
  /-- TR = 1 on a command other than ENCB and DECB, or with INSTR false (R49). -/
  | traceNotAllowed
  /-- RDRK with INSTR false (R50, R108). -/
  | noInstrumentation
deriving DecidableEq, Repr

/-- The four fields of the command word (R46). -/
structure WordFields where
  opc : BitVec 8
  idx : BitVec 4
  tr  : Bool
  rsv : BitVec 19
deriving DecidableEq, Repr

/-- `OPC = bits[7:0]`, `IDX = bits[11:8]`, `TR = bits[12]`, `RSV = bits[31:13]` (R46). -/
def wordFields (w : BitVec 32) : WordFields :=
  { opc := w.extractLsb' 0 8, idx := w.extractLsb' 8 4, tr := w.getLsbD 12, rsv := w.extractLsb' 13 19 }

/-- What an assigned OPC takes from the rest of the word: nothing, IDX, or TR. -/
inductive CommandForm where
  | plain   (i : Instr)
  | indexed (mk : BitVec 4 → Instr)
  | traced  (mk : Bool → Instr)

/-- The opcode map (R51): every value not listed is unassigned (R53). -/
def commandForm (opc : BitVec 8) : Option CommandForm :=
  match opc.toNat with
  | 0x01 => some (.plain .gfmul)
  | 0x02 => some (.plain .xt2)
  | 0x03 => some (.plain .xt3)
  | 0x09 => some (.plain .xt9)
  | 0x0B => some (.plain .xt11)
  | 0x0D => some (.plain .xt13)
  | 0x0E => some (.plain .xt14)
  | 0x10 => some (.plain .sbox)
  | 0x11 => some (.plain .isbox)
  | 0x12 => some (.indexed .rcon)
  | 0x20 => some (.plain .ldst)
  | 0x21 => some (.plain .rdst)
  | 0x30 => some (.plain .subb)
  | 0x31 => some (.plain .isubb)
  | 0x32 => some (.plain .shr)
  | 0x33 => some (.plain .ishr)
  | 0x34 => some (.plain .mixc)
  | 0x35 => some (.plain .imixc)
  | 0x36 => some (.indexed .addrk)
  | 0x40 => some (.plain .rotw)
  | 0x41 => some (.plain .subw)
  | 0x42 => some (.plain .setkey)
  | 0x43 => some (.indexed .rdrk)
  | 0x50 => some (.traced .encb)
  | 0x51 => some (.traced .decb)
  | 0x60 => some (.plain .pad)
  | 0x61 => some (.plain .unpad)
  | 0x62 => some (.plain .ecbe)
  | 0x63 => some (.plain .ecbd)
  | _ => none

/-- The name of a rejection of an ill-formed command (R137). -/
def illFormedReason (c : Config) : Instr → DecodeError
  | .rdrk idx => if keyIndexLegal idx && !c.instr then .noInstrumentation else .indexOutOfRange
  | .encb _ => .traceNotAllowed
  | .decb _ => .traceNotAllowed
  | _ => .indexOutOfRange

/-- Keep a command the decode check accepts (R50). -/
def checkWellFormed (c : Config) (i : Instr) : Except DecodeError Instr :=
  if i.wf c then .ok i else .error (illFormedReason c i)

/-- Put IDX and TR into a command's form; where the form has no such field it must be 0 (R48, R49). -/
def fillForm (c : Config) (idx : BitVec 4) (tr : Bool) : CommandForm → Except DecodeError Instr
  | .plain i =>
    if idx ≠ 0 then .error .indexOutOfRange
    else if tr then .error .traceNotAllowed
    else checkWellFormed c i
  | .indexed mk => if tr then .error .traceNotAllowed else checkWellFormed c (mk idx)
  | .traced mk => if idx ≠ 0 then .error .indexOutOfRange else checkWellFormed c (mk tr)

/-- The decoder: total on every 32-bit word (R50, R54, R56). -/
def decode (c : Config) (w : BitVec 32) : Except DecodeError Instr :=
  let f := wordFields w
  if f.rsv ≠ 0 then .error .reservedBits
  else
    match commandForm f.opc with
    | none => .error .unassignedOpcode
    | some form => fillForm c f.idx f.tr form

/-- The decoder's answer for a row of spec/opcode_table.json, under R8's default parameters. Every row
of the table is one 32-bit word. -/
def decodeTableWord (nbits w : Nat) : Option Instr :=
  if nbits ≤ 32 ∧ w < 2 ^ nbits then (decode Config.default (BitVec.ofNat 32 w)).toOption else none

/-- OPC of a command (R51). -/
def Instr.opcode : Instr → BitVec 8
  | .gfmul => 0x01
  | .xt2 => 0x02
  | .xt3 => 0x03
  | .xt9 => 0x09
  | .xt11 => 0x0B
  | .xt13 => 0x0D
  | .xt14 => 0x0E
  | .sbox => 0x10
  | .isbox => 0x11
  | .rcon _ => 0x12
  | .ldst => 0x20
  | .rdst => 0x21
  | .subb => 0x30
  | .isubb => 0x31
  | .shr => 0x32
  | .ishr => 0x33
  | .mixc => 0x34
  | .imixc => 0x35
  | .addrk _ => 0x36
  | .rotw => 0x40
  | .subw => 0x41
  | .setkey => 0x42
  | .rdrk _ => 0x43
  | .encb _ => 0x50
  | .decb _ => 0x51
  | .pad => 0x60
  | .unpad => 0x61
  | .ecbe => 0x62
  | .ecbd => 0x63

/-- IDX of a command; 0 where the command has no index operand (R48). -/
def Instr.index : Instr → BitVec 4
  | .rcon idx => idx
  | .addrk idx => idx
  | .rdrk idx => idx
  | _ => 0

/-- TR of a command; 0 on every command but ENCB and DECB (R49). -/
def Instr.traceBit : Instr → Bool
  | .encb tr => tr
  | .decb tr => tr
  | _ => false

/-- The encoded word is `OPC | (IDX << 8) | (TR << 12)` (R57). -/
def encode (i : Instr) : BitVec 32 :=
  i.opcode.setWidth 32 ||| (i.index.setWidth 32 <<< 8) ||| ((if i.traceBit then 1 else 0 : BitVec 32) <<< 12)

end Sys2Proof
end

