-- ==== Sys2Proof/Machine/State.lean ====
section
/-! DEFINITION. The machine's state as plain data: the registers of 10_state.md R22, the host's side of
the transaction of 30_encoding.md R45, and the reset state (R29). -/

namespace Sys2Proof.Machine

/-- A block: exactly 16 bytes, `block[0]` first (R17). -/
abbrev Block := Vector Byte 16

/-- A byte string: an input or output payload, byte 0 first (R34, R45). -/
abbrev Payload := List Byte

/-- A cipher State, a 4 by 4 matrix of bytes (R18): column `c` is the word `(s[0][c], …, s[3][c])`
(R12). Round keys have the same shape (R23). -/
structure CipherState where
  c0 : Word
  c1 : Word
  c2 : Word
  c3 : Word
deriving DecidableEq, Repr

/-- The round-key file `RK[0..14]` (R23). -/
abbrev RoundKeys := Vector CipherState 15

/-- The status a response carries (60_exceptions.md R131). -/
inductive Status where
  | ok
  | invalidKeyLength
  | invalidBlockLength
  | invalidPadding
  | illegalCommand
  | invalidPayloadLength
  | noKey
  | noState
deriving DecidableEq, Repr

/-- A command as the host submits it: the command word and the input payload (R45). -/
structure Request where
  word    : BitVec 32
  payload : Payload
deriving DecidableEq, Repr

/-- A response: the status, the output payload and the trace (R45). -/
structure Response where
  status : Status
  out    : Payload
  trace  : List Block
deriving DecidableEq, Repr

/-- One thing the host can do to the core (60_exceptions.md R150). -/
inductive HostEvent where
  /-- Submit a command (R45). -/
  | command (r : Request)
  /-- Raise reset between two commands (R151). -/
  | reset
  /-- Submit a command and raise reset while it is in progress (R151). -/
  | resetDuring (r : Request)
deriving DecidableEq, Repr

/-- The machine. `rk`, `rkv`, `st` and `stv` are all the registers the core holds (R22); the ROMs never
change and are functions of Machine/ConstantsRom.lean (R28). `cfg` is the parameters of R8. `input`,
`inbox` and `outbox` are the MODEL's own fields: the transaction in progress and the host's side of it
(log entries 1 and 4). -/
structure State where
  /-- The parameters of this core (R8); no step changes them. -/
  cfg    : Config
  /-- `RK[0..14]`; `none` is R29's "unset (holds no value)". -/
  rk     : Option RoundKeys
  /-- `RKV`: RK holds a complete expansion (R25). -/
  rkv    : Bool
  /-- `ST`, the stepping State; `none` is R29's "unset" (R26). -/
  st     : Option CipherState
  /-- `STV`: ST holds a value (R27). -/
  stv    : Bool
  /-- `in`, the input payload of the command in progress; empty between commands (R11, R45). -/
  input  : Payload
  /-- What the host does from now on, first event first (R41, R150). -/
  inbox  : List HostEvent
  /-- The responses the core has returned, oldest first (R45, R159). -/
  outbox : List Response
deriving DecidableEq, Repr

/-- Why the machine could stop. NO constructor: the spec gives every command word with any payload in
any state exactly one response, and no behaviour of it is stuck (93_implementation_defined.md, after
its table; R133), so no step of this model faults. An error is a status of a next state (R141). -/
inductive Fault where
deriving DecidableEq, Repr

/-- Why the model could decline. -/
inductive Refusal where
  /-- No meaning for the instruction of this mnemonic: raised by an arm of `exec` that has none yet, by
  no meaning, and at present by no arm. Safe: the model stops where the hardware goes on. -/
  | notModelled (mnemonic : String)
deriving DecidableEq, Repr

/-- The core right after reset (R29): RKV and STV are 0, RK and ST unset. The parameters have R8's
defaults, and the host has sent nothing and received nothing (R152). -/
def State.reset : State :=
  { cfg := Config.default, rk := none, rkv := false, st := none, stv := false
    input := [], inbox := [], outbox := [] }

end Sys2Proof.Machine
end

