-- ==== Sys2Proof/Machine/CipherStates.lean ====
section
/-! DEFINITION. Cells of a cipher State, and the maps between a block and a State (10_state.md R18 to
R20). -/

namespace Sys2Proof.Machine

/-- Byte `k` of a word: `w[k]` (R16). -/
def wordByte (w : Word) : Fin 4 → Byte
  | 0 => w.b0
  | 1 => w.b1
  | 2 => w.b2
  | 3 => w.b3

/-- Column `c` of a State (R12). -/
def CipherState.column (s : CipherState) : Fin 4 → Word
  | 0 => s.c0
  | 1 => s.c1
  | 2 => s.c2
  | 3 => s.c3

/-- The cell `s[r][c]`: row `r`, column `c` (R12, R18). -/
def CipherState.cell (s : CipherState) (r c : Fin 4) : Byte := wordByte (s.column c) r

/-- The State whose column `c` is `f c`. -/
def CipherState.ofColumns (f : Fin 4 → Word) : CipherState := ⟨f 0, f 1, f 2, f 3⟩

/-- The State whose cell in row `r` and column `c` is `f r c`. -/
def CipherState.ofCells (f : Fin 4 → Fin 4 → Byte) : CipherState :=
  .ofColumns fun c => ⟨f 0 c, f 1 c, f 2 c, f 3 c⟩

/-- Apply a byte function to every cell. -/
def CipherState.mapCells (f : Byte → Byte) (s : CipherState) : CipherState :=
  .ofCells fun r c => f (s.cell r c)

/-- The State of sixteen zero bytes. -/
def CipherState.zero : CipherState := ⟨.zero, .zero, .zero, .zero⟩

/-- `s[i mod 4][i div 4] = block[i]`, column-major (R19): the cell in row `r` and column `c` is
`block[4c + r]`. -/
def blockToState (b : Block) : CipherState := .ofCells fun r c => b[4 * c.val + r.val]

/-- `block[i] = s[i mod 4][i div 4]` (R20). -/
def stateToBlock (s : CipherState) : Block :=
  Vector.ofFn fun i => s.cell ⟨i.val % 4, by omega⟩ ⟨i.val / 4, by omega⟩

/-- The first 16 bytes of a byte string as a block. Callers check the length first (R52, R121), so the
0 that stands for a missing byte is never used. -/
def blockOfBytes (l : Payload) : Block := Vector.ofFn fun i => l.getD i.val 0

end Sys2Proof.Machine
end

