-- ==== Sys2Proof/Machine/GfArith.lean ====
section
/-! DEFINITION. The functions of the GF(2^8) multiplier (41_gf_arith.md R60 to R64). -/

namespace Sys2Proof.Machine

/-- times2 (R60): a left shift that keeps the low 8 bits, xor 0x1B when the top bit overflows. -/
def times2 (b : Byte) : Byte := (b <<< 1) ^^^ (if b.getLsbD 7 then 0x1B else 0x00)

/-- `n` iterations of the loop of gfMultiply (R61) from the loop variables `a`, `b` and `p`. -/
def gfLoop : Nat → Byte → Byte → Byte → Byte
  | 0, _, _, p => p
  | n + 1, a, b, p => gfLoop n (times2 a) (b >>> 1) (if b.getLsbD 0 then p ^^^ a else p)

/-- gfMultiply (R61): peasant multiplication over GF(2^8), eight iterations. -/
def gfMultiply (a b : Byte) : Byte := gfLoop 8 a b 0

/-- times3 (R63). -/
def times3 (b : Byte) : Byte := times2 b ^^^ b

/-- times9, by the composition R64 writes out (9 = 8 + 1). -/
def times9 (b : Byte) : Byte := times2 (times2 (times2 b)) ^^^ b

/-- times11, by the composition R64 writes out (11 = 8 + 2 + 1). -/
def times11 (b : Byte) : Byte := times2 (times2 (times2 b) ^^^ b) ^^^ b

/-- times13, by the composition R64 writes out (13 = 8 + 4 + 1). -/
def times13 (b : Byte) : Byte := times2 (times2 (times2 b ^^^ b)) ^^^ b

/-- times14, by the composition R64 writes out (14 = 8 + 4 + 2). -/
def times14 (b : Byte) : Byte := times2 (times2 (times2 b ^^^ b) ^^^ b)

end Sys2Proof.Machine
end

