-- ==== Sys2Proof/Machine/ConstantsTables.lean ====
section
/-! DEFINITION. The three read-only tables: S-box, inverse S-box and round constants (42_constants.md
R72 to R76). They are constants of the model, not fields of the state: no command writes them and reset
does not change them (10_state.md R28). -/

namespace Sys2Proof.Machine

/-- The rows of the table of R72, hi = 0..F from the top; a row is its sixteen entries in the order lo = 0..F,
written one after the other. The last row, F, is the default case: `hi` is a nibble. -/
def sboxRow (hi : Nat) : BitVec 128 :=
  match hi with
  | 0x0 => 0x637c777bf26b6fc53001672bfed7ab76
  | 0x1 => 0xca82c97dfa5947f0add4a2af9ca472c0
  | 0x2 => 0xb7fd9326363ff7cc34a5e5f171d83115
  | 0x3 => 0x04c723c31896059a071280e2eb27b275
  | 0x4 => 0x09832c1a1b6e5aa0523bd6b329e32f84
  | 0x5 => 0x53d100ed20fcb15b6acbbe394a4c58cf
  | 0x6 => 0xd0efaafb434d338545f9027f503c9fa8
  | 0x7 => 0x51a3408f929d38f5bcb6da2110fff3d2
  | 0x8 => 0xcd0c13ec5f974417c4a77e3d645d1973
  | 0x9 => 0x60814fdc222a908846eeb814de5e0bdb
  | 0xA => 0xe0323a0a4906245cc2d3ac629195e479
  | 0xB => 0xe7c8376d8dd54ea96c56f4ea657aae08
  | 0xC => 0xba78252e1ca6b4c6e8dd741f4bbd8b8a
  | 0xD => 0x703eb5664803f60e613557b986c11d9e
  | 0xE => 0xe1f8981169d98e949b1e87e9ce5528df
  | _ => 0x8ca1890dbfe6426841992d0fb054bb16

/-- The rows of the table of R73, written as in `sboxRow`. -/
def invSboxRow (hi : Nat) : BitVec 128 :=
  match hi with
  | 0x0 => 0x52096ad53036a538bf40a39e81f3d7fb
  | 0x1 => 0x7ce339829b2fff87348e4344c4dee9cb
  | 0x2 => 0x547b9432a6c2233dee4c950b42fac34e
  | 0x3 => 0x082ea16628d924b2765ba2496d8bd125
  | 0x4 => 0x72f8f66486689816d4a45ccc5d65b692
  | 0x5 => 0x6c704850fdedb9da5e154657a78d9d84
  | 0x6 => 0x90d8ab008cbcd30af7e45805b8b34506
  | 0x7 => 0xd02c1e8fca3f0f02c1afbd0301138a6b
  | 0x8 => 0x3a9111414f67dcea97f2cfcef0b4e673
  | 0x9 => 0x96ac7422e7ad3585e2f937e81c75df6e
  | 0xA => 0x47f11a711d29c5896fb7620eaa18be1b
  | 0xB => 0xfc563e4bc6d279209adbc0fe78cd5af4
  | 0xC => 0x1fdda8338807c731b11210592780ec5f
  | 0xD => 0x60517fa919b54a0d2de57a9f93c99cef
  | 0xE => 0xa0e03b4dae2af5b0c8ebbb3c83539961
  | _ => 0x172b047eba77d626e169146355210c7d

/-- Entry `lo` of a row of sixteen entries. -/
def rowEntry (row : BitVec 128) (lo : Nat) : Byte := row.extractLsb' (8 * (15 - lo)) 8

/-- `SBOX[x]`: row = high nibble of x, column = low nibble of x (R72). -/
def sboxRom (x : Byte) : Byte := rowEntry (sboxRow (x.toNat / 16)) (x.toNat % 16)

/-- `INVSBOX[y]`, in the same layout (R73). -/
def invSboxRom (y : Byte) : Byte := rowEntry (invSboxRow (y.toNat / 16)) (y.toNat % 16)

/-- The fourteen entries `RCON[1..14]` of R76, in order. -/
def rconEntries : List Byte :=
  [0x01, 0x02, 0x04, 0x08, 0x10, 0x20, 0x40, 0x80, 0x1b, 0x36, 0x6c, 0xd8, 0xab, 0x4d]

/-- `RCON[i]`, indexed 1..14 (R75, R76). No index outside 1..14 is ever read (20_memory.md R33): the RCON
command refuses one, and the key schedule reads 1..7 (R77). -/
def rconRom (i : Nat) : Byte := rconEntries.getD (i - 1) 0

end Sys2Proof.Machine
end

