-- ==== Sys2Proof/Machine/RoundTransforms.lean ====
section
/-! DEFINITION. The round transformations as functions from State to State (43_round_transforms.md R81
to R87). -/

namespace Sys2Proof.Machine

/-- SubBytes (R81). -/
def subBytes (s : CipherState) : CipherState := s.mapCells sboxRom

/-- InvSubBytes (R82). -/
def invSubBytes (s : CipherState) : CipherState := s.mapCells invSboxRom

/-- ShiftRows (R83): `s'[r][c] = s[r][(c + r) mod 4]`; addition of `Fin 4` is modulo 4. -/
def shiftRows (s : CipherState) : CipherState := .ofCells fun r c => s.cell r (c + r)

/-- InvShiftRows (R84): `s'[r][c] = s[r][(c + 4 - r) mod 4]`; subtraction of `Fin 4` is modulo 4. -/
def invShiftRows (s : CipherState) : CipherState := .ofCells fun r c => s.cell r (c - r)

/-- One column of MixColumns (R85). -/
def mixColumn (w : Word) : Word :=
  { b0 := times2 w.b0 ^^^ times3 w.b1 ^^^ w.b2 ^^^ w.b3
    b1 := w.b0 ^^^ times2 w.b1 ^^^ times3 w.b2 ^^^ w.b3
    b2 := w.b0 ^^^ w.b1 ^^^ times2 w.b2 ^^^ times3 w.b3
    b3 := times3 w.b0 ^^^ w.b1 ^^^ w.b2 ^^^ times2 w.b3 }

/-- One column of InvMixColumns, each row the previous one rotated one place right (R86; 90_conflicts.md
C2). -/
def invMixColumn (w : Word) : Word :=
  { b0 := times14 w.b0 ^^^ times11 w.b1 ^^^ times13 w.b2 ^^^ times9 w.b3
    b1 := times9 w.b0 ^^^ times14 w.b1 ^^^ times11 w.b2 ^^^ times13 w.b3
    b2 := times13 w.b0 ^^^ times9 w.b1 ^^^ times14 w.b2 ^^^ times11 w.b3
    b3 := times11 w.b0 ^^^ times13 w.b1 ^^^ times9 w.b2 ^^^ times14 w.b3 }

/-- MixColumns (R85): the four columns are independent. -/
def mixColumns (s : CipherState) : CipherState := .ofColumns fun c => mixColumn (s.column c)

/-- InvMixColumns (R86). -/
def invMixColumns (s : CipherState) : CipherState := .ofColumns fun c => invMixColumn (s.column c)

/-- AddRoundKey (R87): cell-wise xor of the State and a round key. -/
def addRoundKey (s k : CipherState) : CipherState := .ofColumns fun c => (s.column c).xor (k.column c)

end Sys2Proof.Machine
end

