-- ==== Sys2Proof/Machine/KeyExpansion.lean ====
section
/-! DEFINITION. The key schedule: 32 key bytes to 60 words to 15 round keys (44_key_schedule.md R98 to
R102). -/

namespace Sys2Proof.Machine

/-- RotWord (R98). -/
def rotWord (w : Word) : Word := ⟨w.b1, w.b2, w.b3, w.b0⟩

/-- SubWord (R99). -/
def subWord (w : Word) : Word := ⟨sboxRom w.b0, sboxRom w.b1, sboxRom w.b2, sboxRom w.b3⟩

/-- The word of bytes `4j .. 4j+3` of a byte string (R16, 20_memory.md R35 (a)). Callers check the length
first, so the 0 that stands for a missing byte is never used. -/
def wordAt (l : Payload) (j : Nat) : Word :=
  ⟨l.getD (4 * j) 0, l.getD (4 * j + 1) 0, l.getD (4 * j + 2) 0, l.getD (4 * j + 3) 0⟩

/-- The eight words `w[0..7]` taken directly from the key (R100). -/
def keyWords (key : Payload) : List Word := (List.range 8).map (wordAt key)

/-- What the recurrence makes of `prev = w[i-1]` before the xor with `w[i-8]` (R100): for i mod 8 = 0
RotWord, SubWord and the Rcon byte in byte 0; for i mod 8 = 4 SubWord alone; otherwise nothing. -/
def scheduleCore (i : Nat) (prev : Word) : Word :=
  if i % 8 = 0 then (subWord (rotWord prev)).xor ⟨rconRom (i / 8), 0, 0, 0⟩
  else if i % 8 = 4 then subWord prev
  else prev

/-- Append the next `n` words of the recurrence of R100 to the words already made: with `i` words made,
the next one is `w[i]`. -/
def extendWords : Nat → List Word → List Word
  | 0, ws => ws
  | n + 1, ws =>
    let i := ws.length
    extendWords n (ws ++ [(scheduleCore i (ws.getD (i - 1) .zero)).xor (ws.getD (i - 8) .zero)])

/-- expandKey (R100): the 60 words `w[0..59]` of a 32-byte key. -/
def expandKey (key : Payload) : List Word := extendWords 52 (keyWords key)

/-- Reshape 60 words into the 15 round keys (R102): column `c` of round key `r` is word `4r + c`, its byte
0 in row 0. -/
def reshapeWords (ws : List Word) : RoundKeys :=
  Vector.ofFn fun r => .ofColumns fun c => ws.getD (4 * r.val + c.val) .zero

/-- The round-key file of a 32-byte key (R100, R102). -/
def roundKeysOf (key : Payload) : RoundKeys := reshapeWords (expandKey key)

end Sys2Proof.Machine
end

