-- ==== Sys2Proof/Machine/BlockCipher.lean ====
section
/-! DEFINITION. The 14-round orchestrator: one-block encryption and decryption, and their traces
(45_block_cipher.md R109 to R114). The transient State and the round counter of R111 are the arguments
of these functions; nothing of them survives the command (10_state.md R31). -/

namespace Sys2Proof.Machine

/-- The rounds 1..13, in the order of encryption (R109). -/
def middleRounds : List (Fin 15) := [1, 2, 3, 4, 5, 6, 7, 8, 9, 10, 11, 12, 13]

/-- One full encryption round with round key `k` (R109). -/
def encryptRound (t k : CipherState) : CipherState :=
  addRoundKey (mixColumns (shiftRows (subBytes t))) k

/-- The State after encryption round 14 (R109): initial AddRoundKey, rounds 1 to 13, and the final round
without MixColumns. -/
def encryptState (t : CipherState) (rk : RoundKeys) : CipherState :=
  let t := addRoundKey t rk[0]
  let t := middleRounds.foldl (fun t r => encryptRound t rk[r]) t
  addRoundKey (shiftRows (subBytes t)) rk[14]

/-- encryptBlock (R109). -/
def encryptBlock (b : Block) (rk : RoundKeys) : Block := stateToBlock (encryptState (blockToState b) rk)

/-- One full decryption round with round key `k` (R110). -/
def decryptRound (t k : CipherState) : CipherState :=
  invMixColumns (addRoundKey (invSubBytes (invShiftRows t)) k)

/-- The State after the final decryption step (R110): rounds 13 down to 1, and a last step without
InvMixColumns. -/
def decryptState (t : CipherState) (rk : RoundKeys) : CipherState :=
  let t := addRoundKey t rk[14]
  let t := middleRounds.reverse.foldl (fun t r => decryptRound t rk[r]) t
  addRoundKey (invSubBytes (invShiftRows t)) rk[0]

/-- decryptBlock (R110). -/
def decryptBlock (b : Block) (rk : RoundKeys) : Block := stateToBlock (decryptState (blockToState b) rk)

/-- One transformation of the orchestrator's passes (R111). -/
inductive Transform where
  | subBytes
  | invSubBytes
  | shiftRows
  | invShiftRows
  | mixColumns
  | invMixColumns
  | addRoundKey (r : Fin 15)
deriving DecidableEq, Repr

/-- What a transformation makes of a State under the round keys `rk` (R81 to R87). -/
def applyTransform (rk : RoundKeys) : Transform → CipherState → CipherState
  | .subBytes, t => Machine.subBytes t
  | .invSubBytes, t => Machine.invSubBytes t
  | .shiftRows, t => Machine.shiftRows t
  | .invShiftRows, t => Machine.invShiftRows t
  | .mixColumns, t => Machine.mixColumns t
  | .invMixColumns, t => Machine.invMixColumns t
  | .addRoundKey r, t => Machine.addRoundKey t rk[r]

/-- The 56 transformations of one encryption, in the order performed (R111, R113). -/
def encryptSchedule : List Transform :=
  .addRoundKey 0
    :: (middleRounds.flatMap fun r => [.subBytes, .shiftRows, .mixColumns, .addRoundKey r])
    ++ [.subBytes, .shiftRows, .addRoundKey 14]

/-- The 56 transformations of one decryption, in the order performed (R111, R114). -/
def decryptSchedule : List Transform :=
  .addRoundKey 14
    :: (middleRounds.reverse.flatMap fun r => [.invShiftRows, .invSubBytes, .addRoundKey r, .invMixColumns])
    ++ [.invShiftRows, .invSubBytes, .addRoundKey 0]

/-- The State after each of a list of transformations, in the order performed. -/
def statesAfter (rk : RoundKeys) : List Transform → CipherState → List CipherState
  | [], _ => []
  | f :: fs, t => applyTransform rk f t :: statesAfter rk fs (applyTransform rk f t)

/-- The trace of encryption `T[0..55]` (R113); the input block is no entry. -/
def encryptTrace (b : Block) (rk : RoundKeys) : List Block :=
  (statesAfter rk encryptSchedule (blockToState b)).map stateToBlock

/-- The trace of decryption `T[0..55]` (R114). -/
def decryptTrace (b : Block) (rk : RoundKeys) : List Block :=
  (statesAfter rk decryptSchedule (blockToState b)).map stateToBlock

end Sys2Proof.Machine
end

