-- ==== Sys2Proof/Machine/EcbStream.lean ====
section
/-! DEFINITION. Padding and the ECB streams (46_ecb_stream.md R119 to R123). -/

namespace Sys2Proof.Machine

/-- pad (R119): `n = 16 - (len mod 16)` bytes, each of value `n`. -/
def padBytes (m : Payload) : Payload :=
  let n := 16 - m.length % 16
  m ++ List.replicate n (BitVec.ofNat 8 n)

/-- unpad (R120); `none` is the failure InvalidPadding. An empty input, and one shorter than its last byte
says, fail too (92_eei_decisions.md D15). -/
def unpadBytes (p : Payload) : Option Payload :=
  match p.getLast? with
  | none => none
  | some last =>
    let n := last.toNat
    if n = 0 ∨ 16 < n then none
    else if p.length < n then none
    else if (p.drop (p.length - n)).any (fun b => b != last) then none
    else some (p.take (p.length - n))

/-- blocks (R121): the `len(x) div 16` consecutive blocks `x[16k .. 16k+16)`. -/
def blocksOf (x : Payload) : List Block :=
  (List.range (x.length / 16)).map fun k => blockOfBytes (x.drop (16 * k))

/-- encryptStream (R122): the encryptions of the blocks of the padded sequence, block k at position k. The
order in which a core processes them cannot be observed (20_memory.md R43, 92_eei_decisions.md D22). -/
def encryptStream (m : Payload) (rk : RoundKeys) : Payload :=
  (blocksOf (padBytes m)).flatMap fun b => (encryptBlock b rk).toList

/-- The decryptions of the blocks of `c`, one after the other: `p` of R123. -/
def decryptBlocks (c : Payload) (rk : RoundKeys) : Payload :=
  (blocksOf c).flatMap fun b => (decryptBlock b rk).toList

/-- decryptStream (R123): the length is checked first, the padding only after the blocks are decrypted. -/
def decryptStream (c : Payload) (rk : RoundKeys) : Except Status Payload :=
  if c.length = 0 ∨ c.length % 16 ≠ 0 then .error .invalidBlockLength
  else
    match unpadBytes (decryptBlocks c rk) with
    | none => .error .invalidPadding
    | some m => .ok m

end Sys2Proof.Machine
end

