-- ==== Sys2Proof/Machine/Flags.lean ====
section
/-! DEFINITION. The core has no flags and no condition codes (10_state.md R30): the outcome of a command is
the status code in its response, which no later command reads (60_exceptions.md R130). This file gives
the codes their numbers. -/

namespace Sys2Proof.Machine

/-- The 8-bit status code (R131); codes 8..255 are never returned. -/
def Status.code : Status → BitVec 8
  | .ok => 0
  | .invalidKeyLength => 1
  | .invalidBlockLength => 2
  | .invalidPadding => 3
  | .illegalCommand => 4
  | .invalidPayloadLength => 5
  | .noKey => 6
  | .noState => 7

end Sys2Proof.Machine
end

