-- ==== Sys2Proof/Machine/Operands.lean ====
section
/-! DEFINITION. The operands of a command that do not stand in its word: the input payload, its required
length and the status a wrong length raises (30_encoding.md R52, 60_exceptions.md R133). -/

namespace Sys2Proof.Machine

/-- The lengths of an input payload a command accepts (R52). -/
inductive PayloadForm where
  /-- Exactly `n` bytes. -/
  | exactly (n : Nat)
  /-- Any number of bytes. -/
  | anyLength
  /-- A positive multiple of 16 bytes. -/
  | wholeBlocks
deriving DecidableEq, Repr

/-- Whether a payload of `n` bytes has the form (R52). -/
def PayloadForm.accepts : PayloadForm → Nat → Bool
  | .exactly k, n => decide (n = k)
  | .anyLength, _ => true
  | .wholeBlocks, n => decide (n ≠ 0) && decide (n % 16 = 0)

/-- Whether a payload of `n` bytes exceeds MAX_MSG_BYTES (R8, R52). -/
def exceedsMax (c : Config) (n : Nat) : Bool :=
  match c.maxMsgBytes with
  | none => false
  | some m => decide (m < n)

/-- The payload formats of R52. -/
def payloadForm : Instr → PayloadForm
  | .gfmul => .exactly 2
  | .xt2 => .exactly 1
  | .xt3 => .exactly 1
  | .xt9 => .exactly 1
  | .xt11 => .exactly 1
  | .xt13 => .exactly 1
  | .xt14 => .exactly 1
  | .sbox => .exactly 1
  | .isbox => .exactly 1
  | .rcon _ => .exactly 0
  | .ldst => .exactly 16
  | .rdst => .exactly 0
  | .subb => .exactly 0
  | .isubb => .exactly 0
  | .shr => .exactly 0
  | .ishr => .exactly 0
  | .mixc => .exactly 0
  | .imixc => .exactly 0
  | .addrk _ => .exactly 0
  | .rotw => .exactly 4
  | .subw => .exactly 4
  | .setkey => .exactly 32
  | .rdrk _ => .exactly 0
  | .encb _ => .exactly 16
  | .decb _ => .exactly 16
  | .pad => .anyLength
  | .unpad => .anyLength
  | .ecbe => .anyLength
  | .ecbd => .wholeBlocks

/-- The status a payload of the wrong length raises (R52, R134, R135, R138). -/
def wrongLengthStatus : Instr → Status
  | .setkey => .invalidKeyLength
  | .ldst => .invalidBlockLength
  | .encb _ => .invalidBlockLength
  | .decb _ => .invalidBlockLength
  | .ecbd => .invalidBlockLength
  | _ => .invalidPayloadLength

/-- The checks of R133 that need only the word and the payload, in its order: the decode check (R50), the
bound MAX_MSG_BYTES, the command's payload-length rule. The answer is the input payload. -/
def takePayload (i : Instr) (s : State) : Except Status Payload :=
  if !i.wf s.cfg then .error .illegalCommand
  else if exceedsMax s.cfg s.input.length then .error .invalidPayloadLength
  else if !(payloadForm i).accepts s.input.length then .error (wrongLengthStatus i)
  else .ok s.input

/-- Byte `k` of a payload: `in[k]` (R10). Callers check the length first, so the 0 that stands for a
missing byte is never used. -/
def payloadByte (p : Payload) (k : Nat) : Byte := p.getD k 0

/-- A round-key index as an index of `RK[0..14]` (R48). The decode check refuses IDX = 15, so the 0 that
stands for it is never used. -/
def keyIndex (idx : BitVec 4) : Fin 15 := if h : idx.toNat < 15 then ⟨idx.toNat, h⟩ else 0

end Sys2Proof.Machine
end

