-- ==== Sys2Proof/Machine/Ops.lean ====
section
/-! DEFINITION. The shared operations: the registers (10_state.md R22 to R29), the end of a command with
one status (60_exceptions.md R130 to R132), and the host's side of a step (R45, R150, R151). The core has
no trap and no return from one (R141, R142): `State.raise` is all that an error does. -/

namespace Sys2Proof.Machine

/-- Deliver a response; the command is over, and its input payload is gone (R31, R45). -/
def State.respond (s : State) (r : Response) : State := { s with input := [], outbox := s.outbox ++ [r] }

/-- `raise <Status>` (00_scope.md R11): the command ends at once with that status, an empty output payload,
an empty trace and no change of any register (R132). -/
def State.raise (s : State) (e : Status) : State := s.respond ⟨e, [], []⟩

/-- How a command that succeeds ends: the state with its register writes, its output payload, its trace. -/
structure Completion where
  state : State
  out   : Payload
  trace : List Block

/-- The end of a command (R130, R132, 20_memory.md R39): on success the register writes and the response
take effect together; otherwise the status is the whole effect. -/
def State.finish (s : State) : Except Status Completion → Host.Outcome State Fault Refusal
  | .ok c => .next (c.state.respond ⟨.ok, c.out, c.trace⟩)
  | .error e => .next (s.raise e)

/-- Reading RK (R25, R139): NO_KEY unless RKV = 1. That RKV = 1 while RK is unset is ruled out by
`RegistersValid` and treated as RKV = 0 (log entry 2). -/
def State.readKeys (s : State) : Except Status RoundKeys :=
  if s.rkv then
    match s.rk with
    | some k => .ok k
    | none => .error .noKey
  else .error .noKey

/-- Reading ST (R27, R140): NO_STATE unless STV = 1. That STV = 1 while ST is unset is ruled out by
`RegistersValid` and treated as STV = 0 (log entry 2). -/
def State.readStepState (s : State) : Except Status CipherState :=
  if s.stv then
    match s.st with
    | some t => .ok t
    | none => .error .noState
  else .error .noState

/-- SETKEY's write of all of `RK[0..14]` and of RKV (R23, 20_memory.md R38). -/
def State.writeKeys (s : State) (k : RoundKeys) : State := { s with rk := some k, rkv := true }

/-- LDST's write of ST and STV (R27, 20_memory.md R38). -/
def State.loadStepState (s : State) (t : CipherState) : State := { s with st := some t, stv := true }

/-- A transformation command's write of ST; STV is left alone (R27, 92_eei_decisions.md D27). -/
def State.writeStepState (s : State) (t : CipherState) : State := { s with st := some t }

/-- A command that applies `f` to ST (R91 to R96): payload check, then NO_STATE, then the write. -/
def State.transformStep (s : State) (i : Instr) (f : CipherState → CipherState) : Except Status Completion := do
  let _ ← takePayload i s
  let t ← s.readStepState
  return ⟨s.writeStepState (f t), [], []⟩

/-- A command whose only operand is one payload byte and whose result is one byte (R66 to R71, R78, R79). -/
def State.byteCommand (s : State) (i : Instr) (f : Byte → Byte) : Except Status Completion := do
  let p ← takePayload i s
  return ⟨s, [f (payloadByte p 0)], []⟩

/-- A command whose only operand is one payload word and whose result is one word (R105, R106). -/
def State.wordCommand (s : State) (i : Instr) (f : Word → Word) : Except Status Completion := do
  let p ← takePayload i s
  return ⟨s, (f (wordAt p 0)).bytes, []⟩

/-- The reset event (70_reset_and_hazards.md R151): every register at its reset value, a command in
progress abandoned with no response. The parameters, what the host has yet to do and the responses
already delivered are no registers and stay. -/
def State.resetEvent (s : State) : State :=
  { s with rk := none, rkv := false, st := none, stv := false, input := [] }

/-- The core takes the payload of a command it begins (R45). -/
def State.accept (s : State) (p : Payload) : State := { s with input := p }

/-- What the host does next, and the state once it is taken from the host's stream (R41). -/
def State.nextEvent (s : State) : Option (HostEvent × State) :=
  match s.inbox with
  | [] => none
  | e :: rest => some (e, { s with inbox := rest })

/-- The payload `State.withFetchWord` gives a command: zero bytes, as many as its form requires (R52). -/
def zeroPayload (w : BitVec 32) : Payload :=
  match decode Config.default w with
  | .error _ => []
  | .ok i =>
    match payloadForm i with
    | .exactly n => List.replicate n 0
    | .anyLength => []
    | .wholeBlocks => List.replicate 16 0

end Sys2Proof.Machine
end

