-- ==== Sys2Proof/Machine/BlockCommands.lean ====
section
/-! DEFINITION. The block encryptor and decryptor (45_block_cipher.md R116, R117). Neither reads or writes
ST (R111). -/

namespace Sys2Proof.Machine

/-- ENCB (R116); the trace of R113 only when TR = 1. -/
def execEncb (tr : Bool) (s : State) : Host.Outcome State Fault Refusal :=
  s.finish do
    let p ← takePayload (.encb tr) s
    let k ← s.readKeys
    let b := blockOfBytes p
    return ⟨s, (encryptBlock b k).toList, if tr then encryptTrace b k else []⟩

/-- DECB (R117); the trace of R114 only when TR = 1; no padding check (92_eei_decisions.md D28). -/
def execDecb (tr : Bool) (s : State) : Host.Outcome State Fault Refusal :=
  s.finish do
    let p ← takePayload (.decb tr) s
    let k ← s.readKeys
    let b := blockOfBytes p
    return ⟨s, (decryptBlock b k).toList, if tr then decryptTrace b k else []⟩

end Sys2Proof.Machine
end

