-- ==== Sys2Proof/Machine/ConstantsRom.lean ====
section
/-! DEFINITION. The commands of the constants ROM (42_constants.md R78 to R80). None writes a register. -/

namespace Sys2Proof.Machine

/-- SBOX (R78): `out <- [SBOX[in[0]]]`. -/
def execSbox (s : State) : Host.Outcome State Fault Refusal := s.finish (s.byteCommand .sbox sboxRom)

/-- ISBOX (R79): `out <- [INVSBOX[in[0]]]`. -/
def execIsbox (s : State) : Host.Outcome State Fault Refusal := s.finish (s.byteCommand .isbox invSboxRom)

/-- RCON (R80): `out <- [RCON[IDX]]`; IDX outside 1..14 ends with ILLEGAL_COMMAND. -/
def execRcon (idx : BitVec 4) (s : State) : Host.Outcome State Fault Refusal :=
  s.finish do
    let _ ← takePayload (.rcon idx) s
    return ⟨s, [rconRom idx.toNat], []⟩

end Sys2Proof.Machine
end

