-- ==== Sys2Proof/Machine/GfMultiplier.lean ====
section
/-! DEFINITION. The commands of the GF(2^8) multiplier (41_gf_arith.md R65 to R71). None writes a
register. -/

namespace Sys2Proof.Machine

/-- GFMUL (R65): `out <- [gfMultiply(in[0], in[1])]`. -/
def execGfmul (s : State) : Host.Outcome State Fault Refusal :=
  s.finish do
    let p ← takePayload .gfmul s
    return ⟨s, [gfMultiply (payloadByte p 0) (payloadByte p 1)], []⟩

/-- XT2 (R66). -/
def execXt2 (s : State) : Host.Outcome State Fault Refusal := s.finish (s.byteCommand .xt2 times2)

/-- XT3 (R67). -/
def execXt3 (s : State) : Host.Outcome State Fault Refusal := s.finish (s.byteCommand .xt3 times3)

/-- XT9 (R68). -/
def execXt9 (s : State) : Host.Outcome State Fault Refusal := s.finish (s.byteCommand .xt9 times9)

/-- XT11 (R69). -/
def execXt11 (s : State) : Host.Outcome State Fault Refusal := s.finish (s.byteCommand .xt11 times11)

/-- XT13 (R70). -/
def execXt13 (s : State) : Host.Outcome State Fault Refusal := s.finish (s.byteCommand .xt13 times13)

/-- XT14 (R71). -/
def execXt14 (s : State) : Host.Outcome State Fault Refusal := s.finish (s.byteCommand .xt14 times14)

end Sys2Proof.Machine
end

