-- ==== Sys2Proof/Machine/KeyCommands.lean ====
section
/-! DEFINITION. The commands of the key-schedule expander (44_key_schedule.md R105 to R108). -/

namespace Sys2Proof.Machine

/-- ROTW (R105). -/
def execRotw (s : State) : Host.Outcome State Fault Refusal := s.finish (s.wordCommand .rotw rotWord)

/-- SUBW (R106). -/
def execSubw (s : State) : Host.Outcome State Fault Refusal := s.finish (s.wordCommand .subw subWord)

/-- SETKEY (R107): all of RK and RKV in one atomic step; ST and STV are not changed. -/
def execSetkey (s : State) : Host.Outcome State Fault Refusal :=
  s.finish do
    let p ← takePayload .setkey s
    return ⟨s.writeKeys (roundKeysOf p), [], []⟩

/-- RDRK (R108): `out <- stateToBlock(RK[IDX])`; legal only when INSTR is true. -/
def execRdrk (idx : BitVec 4) (s : State) : Host.Outcome State Fault Refusal :=
  s.finish do
    let _ ← takePayload (.rdrk idx) s
    let k ← s.readKeys
    return ⟨s, (stateToBlock k[keyIndex idx]).toList, []⟩

end Sys2Proof.Machine
end

