-- ==== Sys2Proof/Machine/SteppingCommands.lean ====
section
/-! DEFINITION. The commands on the stepping State (43_round_transforms.md R89 to R97). -/

namespace Sys2Proof.Machine

/-- LDST (R89): `ST <- blockToState(in)`, `STV <- 1`. -/
def execLdst (s : State) : Host.Outcome State Fault Refusal :=
  s.finish do
    let p ← takePayload .ldst s
    return ⟨s.loadStepState (blockToState (blockOfBytes p)), [], []⟩

/-- RDST (R90): `out <- stateToBlock(ST)`. -/
def execRdst (s : State) : Host.Outcome State Fault Refusal :=
  s.finish do
    let _ ← takePayload .rdst s
    let t ← s.readStepState
    return ⟨s, (stateToBlock t).toList, []⟩

/-- SUBB (R91). -/
def execSubb (s : State) : Host.Outcome State Fault Refusal := s.finish (s.transformStep .subb subBytes)

/-- ISUBB (R92). -/
def execIsubb (s : State) : Host.Outcome State Fault Refusal := s.finish (s.transformStep .isubb invSubBytes)

/-- SHR (R93). -/
def execShr (s : State) : Host.Outcome State Fault Refusal := s.finish (s.transformStep .shr shiftRows)

/-- ISHR (R94). -/
def execIshr (s : State) : Host.Outcome State Fault Refusal := s.finish (s.transformStep .ishr invShiftRows)

/-- MIXC (R95). -/
def execMixc (s : State) : Host.Outcome State Fault Refusal := s.finish (s.transformStep .mixc mixColumns)

/-- IMIXC (R96). -/
def execImixc (s : State) : Host.Outcome State Fault Refusal := s.finish (s.transformStep .imixc invMixColumns)

/-- ADDRK (R97): `ST <- AddRoundKey(ST, RK[IDX])`; NO_KEY is checked before NO_STATE. -/
def execAddrk (idx : BitVec 4) (s : State) : Host.Outcome State Fault Refusal :=
  s.finish do
    let _ ← takePayload (.addrk idx) s
    let k ← s.readKeys
    let t ← s.readStepState
    return ⟨s.writeStepState (addRoundKey t k[keyIndex idx]), [], []⟩

end Sys2Proof.Machine
end

