-- ==== Sys2Proof/Machine/StreamCommands.lean ====
section
/-! DEFINITION. The commands of the ECB unit (46_ecb_stream.md R125 to R128). None writes a register. -/

namespace Sys2Proof.Machine

/-- PAD (R125); needs no key. -/
def execPad (s : State) : Host.Outcome State Fault Refusal :=
  s.finish do
    let p ← takePayload .pad s
    return ⟨s, padBytes p, []⟩

/-- UNPAD (R126); needs no key and no multiple of 16. -/
def execUnpad (s : State) : Host.Outcome State Fault Refusal :=
  s.finish do
    let p ← takePayload .unpad s
    match unpadBytes p with
    | none => throw .invalidPadding
    | some m => return ⟨s, m, []⟩

/-- ECBE (R127). -/
def execEcbe (s : State) : Host.Outcome State Fault Refusal :=
  s.finish do
    let p ← takePayload .ecbe s
    let k ← s.readKeys
    return ⟨s, encryptStream p k, []⟩

/-- ECBD (R128): on INVALID_PADDING no plaintext is returned. -/
def execEcbd (s : State) : Host.Outcome State Fault Refusal :=
  s.finish do
    let p ← takePayload .ecbd s
    let k ← s.readKeys
    let m ← decryptStream p k
    return ⟨s, m, []⟩

end Sys2Proof.Machine
end

