-- ==== Sys2Proof/Machine/Dispatch.lean ====
section
/-! DEFINITION. What each command does: one arm per row of the opcode map (30_encoding.md R51). -/

namespace Sys2Proof.Machine

def exec (i : Instr) (s : State) : Host.Outcome State Fault Refusal :=
  match i with
  | .gfmul => Sys2Proof.Machine.execGfmul s
  | .xt2 => Sys2Proof.Machine.execXt2 s
  | .xt3 => Sys2Proof.Machine.execXt3 s
  | .xt9 => Sys2Proof.Machine.execXt9 s
  | .xt11 => Sys2Proof.Machine.execXt11 s
  | .xt13 => Sys2Proof.Machine.execXt13 s
  | .xt14 => Sys2Proof.Machine.execXt14 s
  | .sbox => Sys2Proof.Machine.execSbox s
  | .isbox => Sys2Proof.Machine.execIsbox s
  | .rcon idx => Sys2Proof.Machine.execRcon idx s
  | .ldst => Sys2Proof.Machine.execLdst s
  | .rdst => Sys2Proof.Machine.execRdst s
  | .subb => Sys2Proof.Machine.execSubb s
  | .isubb => Sys2Proof.Machine.execIsubb s
  | .shr => Sys2Proof.Machine.execShr s
  | .ishr => Sys2Proof.Machine.execIshr s
  | .mixc => Sys2Proof.Machine.execMixc s
  | .imixc => Sys2Proof.Machine.execImixc s
  | .addrk idx => Sys2Proof.Machine.execAddrk idx s
  | .rotw => Sys2Proof.Machine.execRotw s
  | .subw => Sys2Proof.Machine.execSubw s
  | .setkey => Sys2Proof.Machine.execSetkey s
  | .rdrk idx => Sys2Proof.Machine.execRdrk idx s
  | .encb tr => Sys2Proof.Machine.execEncb tr s
  | .decb tr => Sys2Proof.Machine.execDecb tr s
  | .pad => Sys2Proof.Machine.execPad s
  | .unpad => Sys2Proof.Machine.execUnpad s
  | .ecbe => Sys2Proof.Machine.execEcbe s
  | .ecbd => Sys2Proof.Machine.execEcbd s

end Sys2Proof.Machine
end

