-- ==== Sys2Proof/Machine/Step.lean ====
section
/-! DEFINITION. One step of the machine: the core serves the next event of the host's stream (20_memory.md
R41, 60_exceptions.md R150). There is no program counter and no fetch (R30, R44). -/

namespace Sys2Proof.Machine

/-- One step. With no event left the core waits and holds its registers (R149, R152); that this is a step is the
model's choice (DESIGN CHOICE, log entry 4). A command is decoded and performed as one atomic step (R45, R39); an
illegal word ends with ILLEGAL_COMMAND (R50, R137). A reset, also one raised during a command, is one step (R151;
what it leaves of the host's side is log entry 6, DESIGN CHOICE). -/
def step (s : State) : Host.Outcome State Fault Refusal :=
  match s.nextEvent with
  | none => .next s
  | some (.reset, t) => .next t.resetEvent
  | some (.resetDuring _, t) => .next t.resetEvent
  | some (.command r, t) =>
    match decode t.cfg r.word with
    | .ok i => exec i (t.accept r.payload)
    | .error _ => .next ((t.accept r.payload).raise .illegalCommand)

/-- The state in which the host's next event is the command word `w`, with a payload of zeros of the length
its form requires: the very next step performs that command (log entry 5). -/
def State.withFetchWord (s : State) (nbits w : Nat) : State :=
  let word := BitVec.ofNat 32 (w % 2 ^ nbits)
  { s with inbox := .command ⟨word, zeroPayload word⟩ :: s.inbox }

end Sys2Proof.Machine
end

