-- ==== Sys2Proof/Machine/Assembler.lean ====
section
/-! DEFINITION. The assembler syntax and the pseudo-instructions (30_encoding.md R57, R58). They are the
host's conveniences: the core performs only the commands of R51. -/

namespace Sys2Proof.Machine

/-- The four pseudo-instructions of R58. -/
inductive Pseudo where
  | round  (r : BitVec 4)
  | final
  | iround (r : BitVec 4)
  | ifinal
deriving DecidableEq, Repr

/-- `ROUND` and `IROUND` take r in 1..13 (R58). -/
def Pseudo.wf : Pseudo → Bool
  | .round r => decide (1 ≤ r.toNat) && decide (r.toNat ≤ 13)
  | .final => true
  | .iround r => decide (1 ≤ r.toNat) && decide (r.toNat ≤ 13)
  | .ifinal => true

/-- The fixed command sequences of R58. -/
def Pseudo.expand : Pseudo → List Instr
  | .round r => [.subb, .shr, .mixc, .addrk r]
  | .final => [.subb, .shr, .addrk 14]
  | .iround r => [.ishr, .isubb, .addrk r, .imixc]
  | .ifinal => [.ishr, .isubb, .addrk 0]

/-- The mnemonics of R51 and their operation codes. -/
def mnemonicTable : List (String × BitVec 8) :=
  [("GFMUL", 0x01), ("XT2", 0x02), ("XT3", 0x03), ("XT9", 0x09), ("XT11", 0x0B), ("XT13", 0x0D), ("XT14", 0x0E)]
    ++ [("SBOX", 0x10), ("ISBOX", 0x11), ("RCON", 0x12)]
    ++ [("LDST", 0x20), ("RDST", 0x21), ("SUBB", 0x30), ("ISUBB", 0x31), ("SHR", 0x32), ("ISHR", 0x33)]
    ++ [("MIXC", 0x34), ("IMIXC", 0x35), ("ADDRK", 0x36)]
    ++ [("ROTW", 0x40), ("SUBW", 0x41), ("SETKEY", 0x42), ("RDRK", 0x43), ("ENCB", 0x50), ("DECB", 0x51)]
    ++ [("PAD", 0x60), ("UNPAD", 0x61), ("ECBE", 0x62), ("ECBD", 0x63)]

/-- The value of a decimal digit. -/
def decimalDigit (c : Char) : Option Nat :=
  if '0' ≤ c ∧ c ≤ '9' then some (c.toNat - '0'.toNat) else none

/-- The value of a hex digit. Either case is accepted, which R57 does not say (DESIGN CHOICE, log entry 10). -/
def hexDigit (c : Char) : Option Nat :=
  if 'a' ≤ c ∧ c ≤ 'f' then some (c.toNat - 'a'.toNat + 10)
  else if 'A' ≤ c ∧ c ≤ 'F' then some (c.toNat - 'A'.toNat + 10)
  else decimalDigit c

/-- A non-empty decimal number. R57 says decimal and does not say whether leading zeros are allowed: `#0014` is read
as 14 (DESIGN CHOICE, log entry 10). -/
def decimalNumber : List Char → Option Nat
  | [] => none
  | cs => cs.foldl (fun acc c => do return 10 * (← acc) + (← decimalDigit c)) (some 0)

/-- A hex byte string, byte 0 first (R57). -/
def hexBytes : List Char → Option Payload
  | [] => some []
  | [_] => none
  | a :: b :: rest => do
    let hi ← hexDigit a
    let lo ← hexDigit b
    let more ← hexBytes rest
    return BitVec.ofNat 8 (16 * hi + lo) :: more

/-- The words of a line, which spaces separate. R57 does not say whether a run of spaces, or spaces at either end, are
of the syntax: they are accepted and count as one separator or none; no other character separates (DESIGN CHOICE,
log entry 10). -/
def lineWords (cs : List Char) : List (List Char) :=
  let add (c : Char) (ts : List (List Char)) : List (List Char) :=
    if c = ' ' then [] :: ts
    else
      match ts with
      | [] => [[c]]
      | t :: ts => (c :: t) :: ts
  (cs.foldr add [[]]).filter fun t => !t.isEmpty

/-- The optional `#idx` of a line, and the words after it; an absent index is 0 (R57). -/
def takeIndex : List (List Char) → Option (Nat × List (List Char))
  | ('#' :: digits) :: rest => do return (← decimalNumber digits, rest)
  | rest => some (0, rest)

/-- The payload of a line: hex byte strings, one after the other (R57). R57 writes it contiguous or as space-separated
byte pairs; any mixture of the two, words of several bytes among them, is accepted (DESIGN CHOICE, log entry 10). -/
def takeHexWords : List (List Char) → Option Payload
  | [] => some []
  | t :: rest => do return (← hexBytes t) ++ (← takeHexWords rest)

/-- The mnemonic of a line and its suffix `.T` (R57). -/
def takeMnemonic (t : List Char) : List Char × Bool :=
  match t.reverse with
  | 'T' :: '.' :: rest => (rest.reverse, true)
  | _ => (t, false)

/-- The pseudo-instruction of a name and an index (R58). R58 writes `FINAL` and `IFINAL` without an index and does not
say what a line that gives them one means: such a line is accepted and its index ignored (DESIGN CHOICE, log entry 10). -/
def pseudoOf (name : String) (idx : Nat) : Option Pseudo :=
  if name = "ROUND" then some (.round (BitVec.ofNat 4 idx))
  else if name = "FINAL" then some .final
  else if name = "IROUND" then some (.iround (BitVec.ofNat 4 idx))
  else if name = "IFINAL" then some .ifinal
  else none

/-- The requests one line of assembler stands for (R57, R58): `MNEMONIC[.T] [#idx] [payload]`, whose word is
`OPC | (IDX << 8) | (TR << 12)` and may be illegal, or a pseudo-instruction, which takes no payload. `none`
is a line that is not of the syntax (log entry 10). -/
def assembleLine (line : String) : Option (List Request) :=
  match lineWords line.toList with
  | [] => none
  | head :: rest => do
    let (name, traced) := takeMnemonic head
    let (idx, rest) ← takeIndex rest
    let payload ← takeHexWords rest
    if 16 ≤ idx then none
    else
      match mnemonicTable.lookup (String.ofList name) with
      | some opc =>
        return [⟨opc.setWidth 32 ||| (BitVec.ofNat 32 idx <<< 8) ||| ((if traced then 1 else 0 : BitVec 32) <<< 12), payload⟩]
      | none =>
        let p ← pseudoOf (String.ofList name) idx
        if p.wf && !traced && payload.isEmpty then return p.expand.map fun i => ⟨encode i, []⟩ else none

end Sys2Proof.Machine
end

