-- ==== Sys2Proof/Safety.lean ====
section
/-! DEFINITION. What claims about the machine are stated in: which commands read and write each register
(10_state.md R22), the invariant of the registers (R24, R25, R27), the shape of a response (30_encoding.md
R45), and sequences of commands. A run of this machine is safe by construction: no step stops
(`Fault` has no constructor and no arm of `exec` refuses). -/

namespace Sys2Proof.Machine

/-- The commands that read RK (R22, R139). -/
def readsKeys : Instr → Bool
  | .addrk _ | .rdrk _ | .encb _ | .decb _ | .ecbe | .ecbd => true
  | _ => false

/-- The commands that read ST (R22, R140). -/
def readsStepState : Instr → Bool
  | .rdst | .subb | .isubb | .shr | .ishr | .mixc | .imixc | .addrk _ => true
  | _ => false

/-- The commands that write ST (R22). -/
def writesStepState : Instr → Bool
  | .ldst | .subb | .isubb | .shr | .ishr | .mixc | .imixc | .addrk _ => true
  | _ => false

/-- The input payload of the command in progress is within MAX_MSG_BYTES (R8). -/
def State.fits (s : State) : Prop := ∀ m, s.cfg.maxMsgBytes = some m → s.input.length ≤ m

/-- The 32 key bytes a round-key file stands for: `stateToBlock(RK[0]) ++ stateToBlock(RK[1])` (R24). -/
def keyBytesOf (k : RoundKeys) : Payload := (stateToBlock k[0]).toList ++ (stateToBlock k[1]).toList

/-- RKV says whether RK holds a value, a value of RK is the complete expansion of its key, and STV says
whether ST holds a value (R24, R25, R27). -/
structure RegistersValid (s : State) : Prop where
  rkv_iff : s.rkv = s.rk.isSome
  stv_iff : s.stv = s.st.isSome
  expanded : ∀ k, s.rk = some k → k = roundKeysOf (keyBytesOf k)

/-- Between two commands no input payload is held (R31). -/
def BetweenCommands (s : State) : Prop := s.input = []

/-- A response as R45 and R113 shape it: nothing with a status other than OK, and a trace that is empty or
has 56 entries. -/
def ResponseValid (r : Response) : Prop :=
  (r.status ≠ .ok → r.out = [] ∧ r.trace = []) ∧ (r.trace = [] ∨ r.trace.length = 56)

/-- Commands performed one after the other, each with its payload (R41). -/
def runCommands : List (Instr × Payload) → State → Host.Outcome State Fault Refusal
  | [], s => .next s
  | (i, p) :: rest, s =>
    match exec i (s.accept p) with
    | .next t => runCommands rest t
    | .fault r => .fault r
    | .refused r => .refused r

/-- The 56 transformation commands that encrypt the stepping State: `ADDRK #0`, `ROUND #1` to `ROUND #13`,
`FINAL` (R58, R118). -/
def steppingEncrypt : List Instr :=
  .addrk 0 :: ([1, 2, 3, 4, 5, 6, 7, 8, 9, 10, 11, 12, 13] : List (BitVec 4)).flatMap (fun r => (Pseudo.round r).expand)
    ++ Pseudo.final.expand

/-- The 56 transformation commands that decrypt the stepping State: `ADDRK #14`, `IROUND #13` down to
`IROUND #1`, `IFINAL` (R58, R118). -/
def steppingDecrypt : List Instr :=
  .addrk 14 :: ([13, 12, 11, 10, 9, 8, 7, 6, 5, 4, 3, 2, 1] : List (BitVec 4)).flatMap (fun r => (Pseudo.iround r).expand)
    ++ Pseudo.ifinal.expand

end Sys2Proof.Machine
end

