-- ==== Sys2Proof/Certificates/Slice0/Obligations.lean ====
section
/-! DEFINITION. The statements for the provers: each formalises a numbered rule of spec/, or says that it is
derived. Every statement is about the machine, none about a program. -/

namespace Sys2Proof.Claims

open Sys2Proof.Machine

/-- The 29 assigned operation codes, as 30_encoding.md R51 lists them. -/
def assignedOpcodes : List Nat :=
  [0x01, 0x02, 0x03, 0x09, 0x0B, 0x0D, 0x0E, 0x10, 0x11, 0x12, 0x20, 0x21, 0x30, 0x31, 0x32, 0x33, 0x34, 0x35, 0x36]
    ++ [0x40, 0x41, 0x42, 0x43, 0x50, 0x51, 0x60, 0x61, 0x62, 0x63]

/-- `legal(word)` of R50, on the fields of R46 read from the word as a number. -/
def legalWord (c : Config) (w : BitVec 32) : Prop :=
  let opc := w.toNat % 256
  let idx := w.toNat / 256 % 16
  let tr := w.toNat / 4096 % 2
  let rsv := w.toNat / 8192
  opc ∈ assignedOpcodes ∧ rsv = 0 ∧
  (if opc = 0x12 then 1 ≤ idx ∧ idx ≤ 14
    else if opc = 0x36 ∨ opc = 0x43 then idx ≤ 14
    else idx = 0) ∧
  (tr = 0 ∨ ((opc = 0x50 ∨ opc = 0x51) ∧ c.instr = true)) ∧
  (opc ≠ 0x43 ∨ c.instr = true)

/-- Whether the padding check of a command fails: unpad of the payload for UNPAD, of the decrypted blocks for
ECBD (R136). -/
def paddingFails (i : Instr) (s : State) : Prop :=
  (i = .unpad ∧ unpadBytes s.input = none) ∨
  (i = .ecbd ∧ ∃ k, s.rk = some k ∧ unpadBytes (decryptBlocks s.input k) = none)

/-- The status of a command by the order of checks of 60_exceptions.md R133: the first check that fails gives
it. -/
def StatusByPrecedence (i : Instr) (s : State) (e : Status) : Prop :=
  (i.wf s.cfg = false → e = .illegalCommand) ∧
  (i.wf s.cfg = true → ¬s.fits → e = .invalidPayloadLength) ∧
  (i.wf s.cfg = true → s.fits → (payloadForm i).accepts s.input.length = false → e = wrongLengthStatus i) ∧
  (i.wf s.cfg = true → s.fits → (payloadForm i).accepts s.input.length = true →
    (readsKeys i = true → s.rkv = false → e = .noKey) ∧
    ((readsKeys i = false ∨ s.rkv = true) →
      (readsStepState i = true → s.stv = false → e = .noState) ∧
      ((readsStepState i = false ∨ s.stv = true) →
        (paddingFails i s → e = .invalidPadding) ∧ (¬paddingFails i s → e = .ok))))

/-- The affine map of the S-box construction the spec names at 42_constants.md R72, with constant 0x63: the xor
of a byte and its four left rotations by 1 to 4 places, and 0x63. -/
def affineMap (b : Byte) : Byte :=
  b ^^^ b.rotateLeft 1 ^^^ b.rotateLeft 2 ^^^ b.rotateLeft 3 ^^^ b.rotateLeft 4 ^^^ 0x63

/-- `n` bytes from a number written in hex, the first byte most significant. -/
def bytesOfNumber (n v : Nat) : Payload := (List.range n).map fun i => BitVec.ofNat 8 (v >>> (8 * (n - 1 - i)))

end Sys2Proof.Claims

open Sys2Proof Sys2Proof.Machine Sys2Proof.Claims

/-! ### Command words -/

/-- Decoding the encoding of a legal command gives it back, for every command at every value of IDX and TR that
the parameters allow. -/
def Obligations.DecodeOfEncodeIsIdentity : Prop :=
  ∀ (c : Config) (i : Instr), i.wf c = true → decode c (encode i) = .ok i

/-- A word that decodes is the encoding of what it decodes to, and what it decodes to is legal: every word has
one meaning. -/
def Obligations.EncodeOfDecodeIsIdentity : Prop :=
  ∀ (c : Config) (w : BitVec 32) (i : Instr), decode c w = .ok i → encode i = w ∧ i.wf c = true

/-- R50: a word is decoded exactly when it is legal, and a command with an illegal word ends with
ILLEGAL_COMMAND before any other check, whatever its payload and the state. -/
def Obligations.DecodeCheckIsLegalWord : Prop :=
  (∀ (c : Config) (w : BitVec 32), (∃ i, decode c w = .ok i) ↔ legalWord c w) ∧
  ∀ (s : State) (r : Request) (rest : List HostEvent), s.inbox = .command r :: rest → ¬legalWord s.cfg r.word →
    step s = .next (({ s with inbox := rest } : State).raise .illegalCommand)

/-- Words the spec writes out decode as it says: the five words of R59; of the table of 95_test_vectors.md 2.1 the
words 0x00000001, 0x00000112, 0x00001051, 0x00000243 and 0x00000000 (R51, R53), and with INSTR false 0x00000243 and
0x00001050; and 0x00000063, ECBD, of 95_test_vectors.md 2.9 (R51). -/
def Obligations.SpecWordsDecode : Prop :=
  decode Config.default 0x00000336 = .ok (.addrk 3) ∧
  decode Config.default 0x00000F36 = .error .indexOutOfRange ∧
  decode Config.default 0x00001036 = .error .traceNotAllowed ∧
  decode Config.default 0x00000012 = .error .indexOutOfRange ∧
  decode Config.default 0x00002050 = .error .reservedBits ∧
  decode Config.default 0x00000001 = .ok .gfmul ∧
  decode Config.default 0x00000112 = .ok (.rcon 1) ∧
  decode Config.default 0x00001051 = .ok (.decb true) ∧
  decode Config.default 0x00000243 = .ok (.rdrk 2) ∧
  decode Config.default 0x00000063 = .ok .ecbd ∧
  decode Config.default 0x00000000 = .error .unassignedOpcode ∧
  decode ⟨none, false⟩ 0x00000243 = .error .noInstrumentation ∧
  decode ⟨none, false⟩ 0x00001050 = .error .traceNotAllowed

/-- R57 and R58: lines of assembler stand for the words the spec gives them, and the pseudo-instructions for
their fixed sequences. -/
def Obligations.AssemblerLinesGiveSpecWords : Prop :=
  assembleLine "ADDRK #14" = some [⟨0x00000E36, []⟩] ∧
  assembleLine "RCON #7" = some [⟨0x00000712, []⟩] ∧
  assembleLine "ENCB.T 00112233445566778899aabbccddeeff"
    = some [⟨0x00001050, bytesOfNumber 16 0x00112233445566778899aabbccddeeff⟩] ∧
  assembleLine "GFMUL 57 83" = some [⟨0x00000001, [0x57, 0x83]⟩] ∧
  assembleLine "ROUND #3" = some [⟨0x30, []⟩, ⟨0x32, []⟩, ⟨0x34, []⟩, ⟨0x336, []⟩] ∧
  assembleLine "FINAL" = some [⟨0x30, []⟩, ⟨0x32, []⟩, ⟨0xE36, []⟩] ∧
  assembleLine "IROUND #13" = some [⟨0x33, []⟩, ⟨0x31, []⟩, ⟨0xD36, []⟩, ⟨0x35, []⟩] ∧
  assembleLine "IFINAL" = some [⟨0x33, []⟩, ⟨0x31, []⟩, ⟨0x36, []⟩]

/-! ### Steps, reset and status -/

/-- A step runs the decoded command: with a legal word next in the host's stream, the step is `exec` of its
command on the state that holds its payload and the rest of the stream. -/
def Obligations.StepRunsDecodedCommand : Prop :=
  ∀ (s : State) (r : Request) (rest : List HostEvent) (i : Instr), s.inbox = .command r :: rest →
    decode s.cfg r.word = .ok i → step s = exec i { s with inbox := rest, input := r.payload }

/-- R152, R149: with nothing submitted the core waits and holds every register. The idle step is the model's
(log entry 4). -/
def Obligations.IdleCoreHoldsState : Prop := ∀ s : State, s.inbox = [] → step s = .next s

/-- R151: reset sets RKV and STV to 0 and leaves RK and ST unset; a command in progress delivers no response
and none of its writes. The next state is given whole, so the statement also says that the parameters, the rest of
the host's stream and the delivered responses stay as they are and that the payload in progress is dropped: that
clause is the model's choice, log entry 6 (DESIGN CHOICE), and not in R151. -/
def Obligations.ResetEventClearsRegisters : Prop :=
  ∀ (s : State) (e : HostEvent) (rest : List HostEvent), s.inbox = e :: rest →
    (e = .reset ∨ ∃ r, e = .resetDuring r) →
    step s = .next { s with inbox := rest, input := [], rk := none, rkv := false, st := none, stv := false }

/-- R29: the registers after reset. -/
def Obligations.ResetStateRegisters : Prop :=
  State.reset.rkv = false ∧ State.reset.rk = none ∧ State.reset.stv = false ∧ State.reset.st = none

/-- No step stops. For commands this is R158 and the sentence of 93_implementation_defined.md section 1 that no
behaviour of this spec is stuck, from which the model infers that no step faults or is refused (log entry 12, DEDUCED).
The state whose stream is empty has a next state by the model's choice of the idle step (log entry 4, DESIGN CHOICE),
and a reset event is one step by log entry 6 (DESIGN CHOICE). -/
def Obligations.EveryStepAnswersNext : Prop :=
  (∀ s : State, ∃ t, step s = .next t) ∧ ∀ (i : Instr) (s : State), ∃ t, exec i s = .next t

/-- R130, R132: a command ends with exactly one response, whose status code is in 0..7; with a status other than
OK the output and the trace are empty and RK, RKV, ST and STV keep their values. -/
def Obligations.FailedCommandChangesNothing : Prop :=
  ∀ (s : State) (r : Request) (rest : List HostEvent), s.inbox = .command r :: rest →
    ∃ (a : Response) (t : State), step s = .next t ∧ t.outbox = s.outbox ++ [a] ∧ t.inbox = rest ∧ t.cfg = s.cfg ∧
      a.status.code.toNat ≤ 7 ∧
      (a.status ≠ .ok → a.out = [] ∧ a.trace = [] ∧ t.rk = s.rk ∧ t.rkv = s.rkv ∧ t.st = s.st ∧ t.stv = s.stv)

/-- R131: the numeric values of the status codes. -/
def Obligations.StatusCodeValues : Prop :=
  Status.ok.code = 0 ∧ Status.invalidKeyLength.code = 1 ∧ Status.invalidBlockLength.code = 2 ∧
  Status.invalidPadding.code = 3 ∧ Status.illegalCommand.code = 4 ∧ Status.invalidPayloadLength.code = 5 ∧
  Status.noKey.code = 6 ∧ Status.noState.code = 7

/-- R133: the first check that fails gives the status of a command, in the order decode check, MAX_MSG_BYTES,
payload length, NO_KEY, NO_STATE, padding. -/
def Obligations.StatusFollowsPrecedence : Prop :=
  ∀ (i : Instr) (s : State), RegistersValid s →
    ∃ (a : Response) (t : State), exec i s = .next t ∧ t.outbox = s.outbox ++ [a] ∧ StatusByPrecedence i s a.status

/-! ### Invariants and frames -/

/-- The registers after reset meet the invariant. -/
def Obligations.RegistersValidAtReset : Prop := RegistersValid State.reset ∧ BetweenCommands State.reset

/-- R24, R25, R27: every step keeps RKV = 1 exactly when RK holds a complete expansion of a key, and STV = 1
exactly when ST holds a value; between commands no payload is held. -/
def Obligations.StepKeepsRegistersValid : Prop :=
  ∀ s t : State, RegistersValid s → BetweenCommands s → step s = .next t → RegistersValid t ∧ BetweenCommands t

/-- R45, R113, R114: every step keeps the delivered responses well-shaped: nothing with a status other than OK,
and a trace of no entry or of 56. -/
def Obligations.StepKeepsResponsesValid : Prop :=
  ∀ s t : State, (∀ a ∈ s.outbox, ResponseValid a) → step s = .next t → ∀ a ∈ t.outbox, ResponseValid a

/-- The frame of every command (R22): RK and RKV are written by SETKEY only, STV by LDST only, ST by LDST and the
transformation commands only; the parameters, the host's stream and the earlier responses are unchanged. -/
def Obligations.RegistersWrittenOnlyByTheirCommands : Prop :=
  ∀ (i : Instr) (s t : State), exec i s = .next t →
    (i ≠ .setkey → t.rk = s.rk ∧ t.rkv = s.rkv) ∧
    (i ∉ [.ldst, .subb, .isubb, .shr, .ishr, .mixc, .imixc] → (∀ idx, i ≠ .addrk idx) → t.st = s.st) ∧
    (i ≠ .ldst → t.stv = s.stv) ∧
    t.cfg = s.cfg ∧ t.inbox = s.inbox ∧ t.input = [] ∧ ∃ a, t.outbox = s.outbox ++ [a]

/-- R40: a command that writes no register leaves every register unchanged, and issued twice with the same
payload gives the same response twice; SETKEY issued twice with the same key leaves the same registers. -/
def Obligations.NonWritingCommandsIdempotent : Prop :=
  (∀ (i : Instr) (s : State), i ≠ .setkey → writesStepState i = false →
    ∃ a, exec i s = .next (s.respond a) ∧
      exec i ((s.respond a).accept s.input) = .next (((s.respond a).accept s.input).respond a)) ∧
  ∀ (s t : State), exec .setkey s = .next t →
    ∃ u, exec .setkey (t.accept s.input) = .next u ∧ u.rk = t.rk ∧ u.rkv = t.rkv ∧ u.st = t.st ∧ u.stv = t.stv

/-- R130, R41: no later command reads an earlier status, and none sees a later event: the outcome of a command
does not depend on the responses already delivered nor on what the host does next. -/
def Obligations.OutcomeIndependentOfHostStream : Prop :=
  ∀ (i : Instr) (s : State) (q : List HostEvent) (o : List Response),
    ∃ (a : Response) (t : State), exec i s = .next t ∧ t.outbox = s.outbox ++ [a] ∧
      exec i { s with inbox := q, outbox := o } = .next { t with inbox := q, outbox := o ++ [a] }

/-- R156: a command that neither reads nor writes ST (SETKEY and the block and stream commands among them)
neither sees nor disturbs it; one that neither reads nor writes RK (LDST among them) neither sees nor disturbs
RK and RKV. -/
def Obligations.StepStateAndKeysIndependent : Prop :=
  (∀ (i : Instr) (s t : State) (x : Option CipherState) (y : Bool), readsStepState i = false →
    writesStepState i = false → exec i s = .next t →
    exec i { s with st := x, stv := y } = .next { t with st := x, stv := y }) ∧
  ∀ (i : Instr) (s t : State) (x : Option RoundKeys) (y : Bool), readsKeys i = false → i ≠ .setkey →
    exec i s = .next t → exec i { s with rk := x, rkv := y } = .next { t with rk := x, rkv := y }

/-! ### GF(2^8) multiplier -/

/-- R60: doubling is a left shift that keeps the low 8 bits, xor 0x1B when the top bit is 1; read as a number, it is
twice the byte, reduced by 0x11B when that overflows. -/
def Obligations.DoublingReducesByPolynomial : Prop :=
  ∀ b : Byte,
    times2 b = BitVec.ofNat 8 ((b.toNat <<< 1) &&& 0xFF) ^^^ (if b.getLsbD 7 then 0x1B else 0x00) ∧
    (times2 b).toNat = if b.toNat < 128 then 2 * b.toNat else (2 * b.toNat) ^^^ 0x11B

/-- R61: gfMultiply is the xor, over the bits k of b that are 1, of a doubled k times. -/
def Obligations.GfMultiplyIsXorOfDoublings : Prop :=
  ∀ a b : Byte,
    gfMultiply a b = (List.range 8).foldl (fun p k => if b.getLsbD k then p ^^^ (times2^[k]) a else p) 0

/-- R62: the laws of gfMultiply. -/
def Obligations.GfMultiplyLaws : Prop :=
  ∀ a b c : Byte,
    gfMultiply a 0 = 0 ∧ gfMultiply 0 a = 0 ∧ gfMultiply a 1 = a ∧ gfMultiply 1 a = a ∧
    gfMultiply a b = gfMultiply b a ∧
    gfMultiply a (b ^^^ c) = gfMultiply a b ^^^ gfMultiply a c ∧
    gfMultiply a 2 = times2 a

/-- R63, R64: the values of the constant multipliers. -/
def Obligations.ConstantMultipliersAreProducts : Prop :=
  ∀ b : Byte, times3 b = times2 b ^^^ b ∧ times3 b = gfMultiply b 3 ∧ times9 b = gfMultiply b 9 ∧
    times11 b = gfMultiply b 11 ∧ times13 b = gfMultiply b 13 ∧ times14 b = gfMultiply b 14 ∧
    times9 b = times2 (times2 (times2 b)) ^^^ b ∧ times11 b = times2 (times2 (times2 b) ^^^ b) ^^^ b ∧
    times13 b = times2 (times2 (times2 b ^^^ b)) ^^^ b ∧ times14 b = times2 (times2 (times2 b ^^^ b) ^^^ b)

/-- R65: GFMUL. -/
def Obligations.GfmulCommand : Prop :=
  (∀ c : Config, decode c 0x00000001 = .ok .gfmul) ∧
  ∀ s : State,
    (∀ a b : Byte, s.input = [a, b] → s.fits →
      exec .gfmul s = .next (s.respond ⟨.ok, [gfMultiply a b], []⟩)) ∧
    (s.input.length ≠ 2 ∨ ¬s.fits → exec .gfmul s = .next (s.raise .invalidPayloadLength))

/-- R66 to R71: XT2, XT3, XT9, XT11, XT13 and XT14. -/
def Obligations.MultiplyByConstantCommands : Prop :=
  ∀ x ∈ ([(.xt2, 0x02, times2), (.xt3, 0x03, times3), (.xt9, 0x09, times9), (.xt11, 0x0B, times11),
      (.xt13, 0x0D, times13), (.xt14, 0x0E, times14)] : List (Instr × BitVec 32 × (Byte → Byte))),
    (∀ c : Config, decode c x.2.1 = .ok x.1) ∧
    ∀ s : State,
      (∀ b : Byte, s.input = [b] → s.fits → exec x.1 s = .next (s.respond ⟨.ok, [x.2.2 b], []⟩)) ∧
      (s.input.length ≠ 1 ∨ ¬s.fits → exec x.1 s = .next (s.raise .invalidPayloadLength))

/-! ### Constants ROM -/

/-- R74: the S-box is a permutation, INVSBOX is its inverse on both sides, and the S-box has no fixed point and
no point sent to its complement. -/
def Obligations.SboxIsPermutationWithInverse : Prop :=
  (∀ x : Byte, invSboxRom (sboxRom x) = x ∧ sboxRom (invSboxRom x) = x ∧ sboxRom x ≠ x ∧ sboxRom x ≠ x ^^^ 0xFF) ∧
  Function.Bijective sboxRom

/-- The table of 42_constants.md R72 is the construction its text names: the inverse in GF(2^8), with 0 mapped to
0, then the affine map with constant 0x63. -/
def Obligations.SboxIsAffineMapOfInverse : Prop :=
  sboxRom 0 = affineMap 0 ∧ ∀ x y : Byte, gfMultiply x y = 1 → sboxRom x = affineMap y

/-- R75, R76: the round constants are successive doublings of 0x01, and none is zero. -/
def Obligations.RoundConstantsAreDoublings : Prop :=
  rconRom 1 = 0x01 ∧ (∀ i, 1 ≤ i → i ≤ 13 → rconRom (i + 1) = times2 (rconRom i)) ∧
  ∀ i, 1 ≤ i → i ≤ 14 → rconRom i ≠ 0

/-- R78, R79: SBOX and ISBOX. -/
def Obligations.SboxLookupCommands : Prop :=
  ∀ x ∈ ([(.sbox, 0x10, sboxRom), (.isbox, 0x11, invSboxRom)] : List (Instr × BitVec 32 × (Byte → Byte))),
    (∀ c : Config, decode c x.2.1 = .ok x.1) ∧
    ∀ s : State,
      (∀ b : Byte, s.input = [b] → s.fits → exec x.1 s = .next (s.respond ⟨.ok, [x.2.2 b], []⟩)) ∧
      (s.input.length ≠ 1 ∨ ¬s.fits → exec x.1 s = .next (s.raise .invalidPayloadLength))

/-- R80: RCON. -/
def Obligations.RconCommand : Prop :=
  (∀ (c : Config) (idx : BitVec 4), 1 ≤ idx.toNat → idx.toNat ≤ 14 →
    decode c (0x00000012 ||| (idx.setWidth 32 <<< 8)) = .ok (.rcon idx)) ∧
  ∀ (s : State) (idx : BitVec 4),
    (1 ≤ idx.toNat → idx.toNat ≤ 14 → s.input = [] →
      exec (.rcon idx) s = .next (s.respond ⟨.ok, [rconRom idx.toNat], []⟩)) ∧
    (1 ≤ idx.toNat → idx.toNat ≤ 14 → s.input ≠ [] →
      exec (.rcon idx) s = .next (s.raise .invalidPayloadLength)) ∧
    (idx.toNat = 0 ∨ idx.toNat = 15 → exec (.rcon idx) s = .next (s.raise .illegalCommand))

/-! ### Round transformations and the stepping State -/

/-- R19, R20: the map from a block to a State and back, column-major, and that they are mutual inverses. -/
def Obligations.BlockStateMapsAreInverse : Prop :=
  (∀ (b : Block) (i : Fin 16),
    (blockToState b).cell ⟨i.val % 4, Nat.mod_lt _ (by decide)⟩ ⟨i.val / 4, Nat.div_lt_of_lt_mul i.isLt⟩ = b[i]) ∧
  (∀ (s : CipherState) (i : Fin 16),
    (stateToBlock s)[i] = s.cell ⟨i.val % 4, Nat.mod_lt _ (by decide)⟩ ⟨i.val / 4, Nat.div_lt_of_lt_mul i.isLt⟩) ∧
  (∀ b : Block, stateToBlock (blockToState b) = b) ∧ ∀ s : CipherState, blockToState (stateToBlock s) = s

/-- R81 to R84 and R87, cell by cell. -/
def Obligations.CellwiseTransformations : Prop :=
  ∀ (s k : CipherState) (r c : Fin 4),
    (subBytes s).cell r c = sboxRom (s.cell r c) ∧
    (invSubBytes s).cell r c = invSboxRom (s.cell r c) ∧
    (shiftRows s).cell r c = s.cell r ⟨(c.val + r.val) % 4, Nat.mod_lt _ (by decide)⟩ ∧
    (invShiftRows s).cell r c = s.cell r ⟨(c.val + 4 - r.val) % 4, Nat.mod_lt _ (by decide)⟩ ∧
    (addRoundKey s k).cell r c = s.cell r c ^^^ k.cell r c

/-- R85, R86: the equations of MixColumns and InvMixColumns, in every column, with products of gfMultiply. -/
def Obligations.MixColumnsEquations : Prop :=
  ∀ (s : CipherState) (c : Fin 4),
    let m := fun (k : Byte) (r : Fin 4) => gfMultiply k (s.cell r c)
    (mixColumns s).cell 0 c = m 2 0 ^^^ m 3 1 ^^^ s.cell 2 c ^^^ s.cell 3 c ∧
    (mixColumns s).cell 1 c = s.cell 0 c ^^^ m 2 1 ^^^ m 3 2 ^^^ s.cell 3 c ∧
    (mixColumns s).cell 2 c = s.cell 0 c ^^^ s.cell 1 c ^^^ m 2 2 ^^^ m 3 3 ∧
    (mixColumns s).cell 3 c = m 3 0 ^^^ s.cell 1 c ^^^ s.cell 2 c ^^^ m 2 3 ∧
    (invMixColumns s).cell 0 c = m 14 0 ^^^ m 11 1 ^^^ m 13 2 ^^^ m 9 3 ∧
    (invMixColumns s).cell 1 c = m 9 0 ^^^ m 14 1 ^^^ m 11 2 ^^^ m 13 3 ∧
    (invMixColumns s).cell 2 c = m 13 0 ^^^ m 9 1 ^^^ m 14 2 ^^^ m 11 3 ∧
    (invMixColumns s).cell 3 c = m 11 0 ^^^ m 13 1 ^^^ m 9 2 ^^^ m 14 3

/-- R88: the inverse laws, for every State and round key. -/
def Obligations.TransformationInverseLaws : Prop :=
  ∀ s k : CipherState,
    invSubBytes (subBytes s) = s ∧ subBytes (invSubBytes s) = s ∧
    invShiftRows (shiftRows s) = s ∧ shiftRows (invShiftRows s) = s ∧
    invMixColumns (mixColumns s) = s ∧ mixColumns (invMixColumns s) = s ∧
    addRoundKey (addRoundKey s k) k = s ∧
    subBytes (shiftRows s) = shiftRows (subBytes s) ∧ invSubBytes (invShiftRows s) = invShiftRows (invSubBytes s)

/-- R89: LDST. -/
def Obligations.LdstCommand : Prop :=
  (∀ c : Config, decode c 0x00000020 = .ok .ldst) ∧
  ∀ s : State,
    (∀ b : Block, s.input = b.toList → s.fits →
      exec .ldst s = .next (({ s with st := some (blockToState b), stv := true } : State).respond ⟨.ok, [], []⟩)) ∧
    (s.input.length ≠ 16 → s.fits → exec .ldst s = .next (s.raise .invalidBlockLength)) ∧
    (¬s.fits → exec .ldst s = .next (s.raise .invalidPayloadLength))

/-- R90: RDST. -/
def Obligations.RdstCommand : Prop :=
  (∀ c : Config, decode c 0x00000021 = .ok .rdst) ∧
  ∀ s : State,
    (∀ x : CipherState, s.input = [] → s.stv = true → s.st = some x →
      exec .rdst s = .next (s.respond ⟨.ok, (stateToBlock x).toList, []⟩)) ∧
    (s.input = [] → s.stv = false → exec .rdst s = .next (s.raise .noState)) ∧
    (s.input ≠ [] → exec .rdst s = .next (s.raise .invalidPayloadLength))

/-- R91 to R96: SUBB, ISUBB, SHR, ISHR, MIXC and IMIXC. -/
def Obligations.TransformationCommands : Prop :=
  ∀ x ∈ ([(.subb, 0x30, subBytes), (.isubb, 0x31, invSubBytes), (.shr, 0x32, shiftRows), (.ishr, 0x33, invShiftRows),
      (.mixc, 0x34, mixColumns), (.imixc, 0x35, invMixColumns)] :
      List (Instr × BitVec 32 × (CipherState → CipherState))),
    (∀ c : Config, decode c x.2.1 = .ok x.1) ∧
    ∀ s : State,
      (∀ y : CipherState, s.input = [] → s.stv = true → s.st = some y →
        exec x.1 s = .next (({ s with st := some (x.2.2 y) } : State).respond ⟨.ok, [], []⟩)) ∧
      (s.input = [] → s.stv = false → exec x.1 s = .next (s.raise .noState)) ∧
      (s.input ≠ [] → exec x.1 s = .next (s.raise .invalidPayloadLength))

/-- R97: ADDRK. -/
def Obligations.AddrkCommand : Prop :=
  (∀ (c : Config) (r : Fin 15),
    decode c (0x00000036 ||| (BitVec.ofNat 32 r.val <<< 8)) = .ok (.addrk (BitVec.ofNat 4 r.val))) ∧
  ∀ s : State,
    (∀ r : Fin 15,
      (∀ (k : RoundKeys) (y : CipherState), s.input = [] → s.rkv = true → s.rk = some k → s.stv = true →
        s.st = some y →
        exec (.addrk (BitVec.ofNat 4 r.val)) s
          = .next (({ s with st := some (addRoundKey y k[r]) } : State).respond ⟨.ok, [], []⟩)) ∧
      (∀ k : RoundKeys, s.input = [] → s.rkv = true → s.rk = some k → s.stv = false →
        exec (.addrk (BitVec.ofNat 4 r.val)) s = .next (s.raise .noState)) ∧
      (s.input = [] → s.rkv = false → exec (.addrk (BitVec.ofNat 4 r.val)) s = .next (s.raise .noKey)) ∧
      (s.input ≠ [] → exec (.addrk (BitVec.ofNat 4 r.val)) s = .next (s.raise .invalidPayloadLength))) ∧
    exec (.addrk 15) s = .next (s.raise .illegalCommand)

/-! ### Key schedule -/

/-- R98, R99, R105, R106: ROTW and SUBW. -/
def Obligations.WordCommands : Prop :=
  (∀ c : Config, decode c 0x00000040 = .ok .rotw ∧ decode c 0x00000041 = .ok .subw) ∧
  ∀ s : State,
    (∀ a b c d : Byte, s.input = [a, b, c, d] → s.fits →
      exec .rotw s = .next (s.respond ⟨.ok, [b, c, d, a], []⟩) ∧
      exec .subw s = .next (s.respond ⟨.ok, [sboxRom a, sboxRom b, sboxRom c, sboxRom d], []⟩)) ∧
    (s.input.length ≠ 4 ∨ ¬s.fits →
      exec .rotw s = .next (s.raise .invalidPayloadLength) ∧ exec .subw s = .next (s.raise .invalidPayloadLength))

/-- R100: expandKey builds 60 words by its recurrence. -/
def Obligations.ExpandKeyRecurrence : Prop :=
  ∀ key : Payload, key.length = 32 →
    let w := fun i => (expandKey key).getD i .zero
    (expandKey key).length = 60 ∧
    (∀ j, j < 8 → (w j).bytes = (key.drop (4 * j)).take 4) ∧
    ∀ i, 8 ≤ i → i < 60 →
      w i = (if i % 8 = 0 then (subWord (rotWord (w (i - 1)))).xor ⟨rconRom (i / 8), 0x00, 0x00, 0x00⟩
              else if i % 8 = 4 then subWord (w (i - 1))
              else w (i - 1)).xor (w (i - 8))

/-- R102, R103: the round keys are the words reshaped column-wise; in block order round key r is words 4r to
4r+3, and the first two round keys are the key. -/
def Obligations.RoundKeysReshapeWords : Prop :=
  ∀ key : Payload, key.length = 32 →
    let w := fun i => (expandKey key).getD i .zero
    (∀ (r : Fin 15) (c k : Fin 4), (roundKeysOf key)[r].cell k c = wordByte (w (4 * r.val + c.val)) k) ∧
    (∀ r : Fin 15, (stateToBlock (roundKeysOf key)[r]).toList
      = (w (4 * r.val)).bytes ++ (w (4 * r.val + 1)).bytes ++ (w (4 * r.val + 2)).bytes ++ (w (4 * r.val + 3)).bytes) ∧
    (stateToBlock (roundKeysOf key)[0]).toList = key.take 16 ∧ (stateToBlock (roundKeysOf key)[1]).toList = key.drop 16

/-- R104: leaving out the SubWord at i mod 8 = 4 would change w[12], the first word of round key 3, for every
key. -/
def Obligations.MiddleSubWordChangesWordTwelve : Prop :=
  ∀ key : Payload, key.length = 32 →
    (expandKey key).getD 12 .zero ≠ ((expandKey key).getD 11 .zero).xor ((expandKey key).getD 4 .zero)

/-- R107: SETKEY. -/
def Obligations.SetkeyCommand : Prop :=
  (∀ c : Config, decode c 0x00000042 = .ok .setkey) ∧
  ∀ s : State,
    (s.input.length = 32 → s.fits → ∃ k : RoundKeys,
      exec .setkey s = .next (({ s with rk := some k, rkv := true } : State).respond ⟨.ok, [], []⟩) ∧
      ∀ (r : Fin 15) (c n : Fin 4), k[r].cell n c = wordByte ((expandKey s.input).getD (4 * r.val + c.val) .zero) n) ∧
    (s.input.length ≠ 32 → s.fits → exec .setkey s = .next (s.raise .invalidKeyLength)) ∧
    (¬s.fits → exec .setkey s = .next (s.raise .invalidPayloadLength))

/-- R108: RDRK; it is legal only when INSTR is true. -/
def Obligations.RdrkCommand : Prop :=
  (∀ (c : Config) (r : Fin 15), c.instr = true →
    decode c (0x00000043 ||| (BitVec.ofNat 32 r.val <<< 8)) = .ok (.rdrk (BitVec.ofNat 4 r.val))) ∧
  ∀ s : State,
    (∀ r : Fin 15, s.cfg.instr = true →
      (∀ k : RoundKeys, s.input = [] → s.rkv = true → s.rk = some k →
        exec (.rdrk (BitVec.ofNat 4 r.val)) s = .next (s.respond ⟨.ok, (stateToBlock k[r]).toList, []⟩)) ∧
      (s.input = [] → s.rkv = false → exec (.rdrk (BitVec.ofNat 4 r.val)) s = .next (s.raise .noKey)) ∧
      (s.input ≠ [] → exec (.rdrk (BitVec.ofNat 4 r.val)) s = .next (s.raise .invalidPayloadLength))) ∧
    ∀ idx : BitVec 4, (s.cfg.instr = false ∨ idx = 15) →
      (∀ i, decode s.cfg (encode (.rdrk idx)) ≠ .ok i) ∧
      exec (.rdrk idx) s = .next (s.raise .illegalCommand)

/-! ### Block cipher -/

/-- R112: decryption undoes encryption and encryption undoes decryption, for every block and every round-key
file, the expansion of every key among them. -/
def Obligations.BlockCipherRoundTrip : Prop :=
  ∀ (b : Block) (rk : RoundKeys),
    decryptBlock (encryptBlock b rk) rk = b ∧ encryptBlock (decryptBlock b rk) rk = b

/-- R109, R113: the 56 entries of the trace of encryption, each the State after one transformation of the one before
it, in the order of R109; the last is the output. -/
def Obligations.EncryptionTraceEntries : Prop :=
  ∀ (b : Block) (rk : RoundKeys),
    let T := fun n => (encryptTrace b rk).getD n (blockOfBytes [])
    let S := fun n => blockToState (T n)
    (encryptTrace b rk).length = 56 ∧
    T 0 = stateToBlock (addRoundKey (blockToState b) rk[0]) ∧
    (∀ r : Fin 15, 1 ≤ r.val → r.val ≤ 13 →
      T (4 * r.val - 3) = stateToBlock (subBytes (S (4 * r.val - 4))) ∧
      T (4 * r.val - 2) = stateToBlock (shiftRows (S (4 * r.val - 3))) ∧
      T (4 * r.val - 1) = stateToBlock (mixColumns (S (4 * r.val - 2))) ∧
      T (4 * r.val) = stateToBlock (addRoundKey (S (4 * r.val - 1)) rk[r])) ∧
    T 53 = stateToBlock (subBytes (S 52)) ∧ T 54 = stateToBlock (shiftRows (S 53)) ∧
    T 55 = stateToBlock (addRoundKey (S 54) rk[14]) ∧ T 55 = encryptBlock b rk ∧
    ∀ s : State, s.cfg.instr = true → s.input = b.toList → s.fits → s.rkv = true → s.rk = some rk →
      exec (.encb true) s = .next (s.respond ⟨.ok, (encryptBlock b rk).toList, encryptTrace b rk⟩)

/-- R110, R114: the 56 entries of the trace of decryption, in the order of R110; the last is the output. -/
def Obligations.DecryptionTraceEntries : Prop :=
  ∀ (b : Block) (rk : RoundKeys),
    let T := fun n => (decryptTrace b rk).getD n (blockOfBytes [])
    let S := fun n => blockToState (T n)
    (decryptTrace b rk).length = 56 ∧
    T 0 = stateToBlock (addRoundKey (blockToState b) rk[14]) ∧
    (∀ r : Fin 15, 1 ≤ r.val → r.val ≤ 13 →
      let j := 13 - r.val
      T (4 * j + 1) = stateToBlock (invShiftRows (S (4 * j))) ∧
      T (4 * j + 2) = stateToBlock (invSubBytes (S (4 * j + 1))) ∧
      T (4 * j + 3) = stateToBlock (addRoundKey (S (4 * j + 2)) rk[r]) ∧
      T (4 * j + 4) = stateToBlock (invMixColumns (S (4 * j + 3)))) ∧
    T 53 = stateToBlock (invShiftRows (S 52)) ∧ T 54 = stateToBlock (invSubBytes (S 53)) ∧
    T 55 = stateToBlock (addRoundKey (S 54) rk[0]) ∧ T 55 = decryptBlock b rk ∧
    ∀ s : State, s.cfg.instr = true → s.input = b.toList → s.fits → s.rkv = true → s.rk = some rk →
      exec (.decb true) s = .next (s.respond ⟨.ok, (decryptBlock b rk).toList, decryptTrace b rk⟩)

/-- R116: ENCB, with and without the trace. -/
def Obligations.EncbCommand : Prop :=
  (∀ c : Config, decode c 0x00000050 = .ok (.encb false) ∧
    (c.instr = true → decode c 0x00001050 = .ok (.encb true))) ∧
  ∀ s : State,
    (∀ tr : Bool, (tr = true → s.cfg.instr = true) →
      (∀ (b : Block) (k : RoundKeys), s.input = b.toList → s.fits → s.rkv = true → s.rk = some k →
        exec (.encb tr) s
          = .next (s.respond ⟨.ok, (encryptBlock b k).toList, if tr then encryptTrace b k else []⟩)) ∧
      (s.input.length = 16 → s.fits → s.rkv = false → exec (.encb tr) s = .next (s.raise .noKey)) ∧
      (s.input.length ≠ 16 → s.fits → exec (.encb tr) s = .next (s.raise .invalidBlockLength)) ∧
      (¬s.fits → exec (.encb tr) s = .next (s.raise .invalidPayloadLength))) ∧
    (s.cfg.instr = false → exec (.encb true) s = .next (s.raise .illegalCommand))

/-- R117: DECB, with and without the trace; any block decrypts. -/
def Obligations.DecbCommand : Prop :=
  (∀ c : Config, decode c 0x00000051 = .ok (.decb false) ∧
    (c.instr = true → decode c 0x00001051 = .ok (.decb true))) ∧
  ∀ s : State,
    (∀ tr : Bool, (tr = true → s.cfg.instr = true) →
      (∀ (b : Block) (k : RoundKeys), s.input = b.toList → s.fits → s.rkv = true → s.rk = some k →
        exec (.decb tr) s
          = .next (s.respond ⟨.ok, (decryptBlock b k).toList, if tr then decryptTrace b k else []⟩)) ∧
      (s.input.length = 16 → s.fits → s.rkv = false → exec (.decb tr) s = .next (s.raise .noKey)) ∧
      (s.input.length ≠ 16 → s.fits → exec (.decb tr) s = .next (s.raise .invalidBlockLength)) ∧
      (¬s.fits → exec (.decb tr) s = .next (s.raise .invalidPayloadLength))) ∧
    (s.cfg.instr = false → exec (.decb true) s = .next (s.raise .illegalCommand))

/-- R115, first sentence: TR changes neither the output payload, nor the status, nor any register; with TR = 0 the
trace is empty. -/
def Obligations.TraceChangesNothingElse : Prop :=
  ∀ s : State, s.cfg.instr = true →
    ∀ x ∈ ([(.encb false, .encb true), (.decb false, .decb true)] : List (Instr × Instr)),
      ∃ (e : Status) (out : Payload) (tr : List Block),
        exec x.1 s = .next (s.respond ⟨e, out, []⟩) ∧ exec x.2 s = .next (s.respond ⟨e, out, tr⟩)

/-- R118: stepping a block through the transformation commands returns what the orchestrator returns, and its 56
intermediate States are the entries of the trace; for encryption and for decryption. -/
def Obligations.SteppingMatchesOrchestrator : Prop :=
  ∀ (s : State) (k : RoundKeys) (b : Block), s.rkv = true → s.rk = some k →
    (∀ m, s.cfg.maxMsgBytes = some m → 16 ≤ m) →
    ∀ x ∈ ([(steppingEncrypt, encryptBlock b k, encryptTrace b k), (steppingDecrypt, decryptBlock b k, decryptTrace b k)] :
        List (List Instr × Block × List Block)),
      runCommands ((.ldst, b.toList) :: x.1.map (fun i => (i, [])) ++ [(.rdst, [])]) s
        = .next { s with
            st := some (blockToState x.2.1), stv := true, input := []
            outbox := s.outbox ++ List.replicate 57 ⟨.ok, [], []⟩ ++ [⟨.ok, x.2.1.toList, []⟩] } ∧
      ∀ n, n < 56 → ∃ t, runCommands ((.ldst, b.toList) :: (x.1.take (n + 1)).map (fun i => (i, []))) s = .next t ∧
        t.st.map stateToBlock = x.2.2[n]?

/-- The source's own known answer under its corrected key (95_test_vectors.md 1.1, 90_conflicts.md C1) and the
vector of 95_test_vectors.md 2.6, encrypted and decrypted. -/
def Obligations.KnownAnswerVectors : Prop :=
  ∀ x ∈ ([(0x603deb1015ca71be2b73aef0857d77811f352c073b6108d72d9810a30914dff4, 0x6bc1bee22e409f96e93d7e117393172a,
        0xf3eed1bdb5d2a03c064b5a7e3db181f8),
      (0x000102030405060708090a0b0c0d0e0f101112131415161718191a1b1c1d1e1f, 0x00112233445566778899aabbccddeeff,
        0x8ea2b7ca516745bfeafc49904b496089)] : List (Nat × Nat × Nat)),
    let rk := roundKeysOf (bytesOfNumber 32 x.1)
    encryptBlock (blockOfBytes (bytesOfNumber 16 x.2.1)) rk = blockOfBytes (bytesOfNumber 16 x.2.2) ∧
    decryptBlock (blockOfBytes (bytesOfNumber 16 x.2.2)) rk = blockOfBytes (bytesOfNumber 16 x.2.1)

/-! ### Padding and streams -/

/-- R119: pad appends n bytes of value n, n in 1..16, up to a multiple of 16. -/
def Obligations.PadAppendsItsLength : Prop :=
  ∀ m : Payload, ∃ n, 1 ≤ n ∧ n ≤ 16 ∧ n = 16 - m.length % 16 ∧
    padBytes m = m ++ List.replicate n (BitVec.ofNat 8 n) ∧ (padBytes m).length % 16 = 0

/-- R120: unpad answers m exactly when the sequence is m followed by n bytes of value n for an n in 1..16, and
otherwise fails. -/
def Obligations.UnpadAcceptsExactlyPaddings : Prop :=
  ∀ p : Payload,
    (∀ m : Payload, unpadBytes p = some m ↔ ∃ n, 1 ≤ n ∧ n ≤ 16 ∧ p = m ++ List.replicate n (BitVec.ofNat 8 n)) ∧
    (unpadBytes p = none ↔ ∀ (m : Payload) (n : Nat), 1 ≤ n → n ≤ 16 → p ≠ m ++ List.replicate n (BitVec.ofNat 8 n))

/-- R122, R123, R124: output block k of a stream depends on input block k and the round keys alone: it is the
cipher of that block; equal blocks give equal blocks. -/
def Obligations.StreamBlocksAreIndependent : Prop :=
  ∀ (m c : Payload) (rk : RoundKeys),
    (encryptStream m rk).length = m.length + 16 - m.length % 16 ∧
    blocksOf (encryptStream m rk) = (blocksOf (padBytes m)).map (fun b => encryptBlock b rk) ∧
    blocksOf (decryptBlocks c rk) = (blocksOf c).map (fun b => decryptBlock b rk) ∧
    ∀ j k : Nat, (blocksOf (padBytes m))[j]? = (blocksOf (padBytes m))[k]? →
      (blocksOf (encryptStream m rk))[j]? = (blocksOf (encryptStream m rk))[k]?

/-- R129: the stream laws. -/
def Obligations.StreamRoundTrip : Prop :=
  (∀ (s : State) (k : RoundKeys) (m : Payload), s.rkv = true → s.rk = some k →
    (∀ x, s.cfg.maxMsgBytes = some x → m.length + 16 ≤ x) →
    decryptStream (encryptStream m k) k = .ok m ∧
    runCommands [(.ecbe, m), (.ecbd, encryptStream m k)] s
      = .next { s with input := [], outbox := s.outbox ++ [⟨.ok, encryptStream m k, []⟩, ⟨.ok, m, []⟩] }) ∧
  (∀ m : Payload, unpadBytes (padBytes m) = some m ∧
    (m.length % 16 = 0 → padBytes m = m ++ List.replicate 16 0x10)) ∧
  ∀ (m : Payload) (k l : RoundKeys),
    decryptStream (encryptStream m k) l = .error .invalidPadding ∨ ∃ p, decryptStream (encryptStream m k) l = .ok p

/-- R125, R126: PAD and UNPAD, which need no key. -/
def Obligations.PadUnpadCommands : Prop :=
  (∀ c : Config, decode c 0x00000060 = .ok .pad ∧ decode c 0x00000061 = .ok .unpad) ∧
  ∀ s : State,
    (s.fits → exec .pad s = .next (s.respond ⟨.ok, padBytes s.input, []⟩)) ∧
    (∀ m : Payload, s.fits → unpadBytes s.input = some m → exec .unpad s = .next (s.respond ⟨.ok, m, []⟩)) ∧
    (s.fits → unpadBytes s.input = none → exec .unpad s = .next (s.raise .invalidPadding)) ∧
    (¬s.fits → exec .pad s = .next (s.raise .invalidPayloadLength) ∧
      exec .unpad s = .next (s.raise .invalidPayloadLength))

/-- R127: ECBE. -/
def Obligations.EcbeCommand : Prop :=
  (∀ c : Config, decode c 0x00000062 = .ok .ecbe) ∧
  ∀ s : State,
    (∀ k : RoundKeys, s.fits → s.rkv = true → s.rk = some k →
      exec .ecbe s = .next (s.respond ⟨.ok, encryptStream s.input k, []⟩)) ∧
    (s.fits → s.rkv = false → exec .ecbe s = .next (s.raise .noKey)) ∧
    (¬s.fits → exec .ecbe s = .next (s.raise .invalidPayloadLength))

/-- R123, R128: ECBD. -/
def Obligations.EcbdCommand : Prop :=
  (∀ c : Config, decode c 0x00000063 = .ok .ecbd) ∧
  ∀ s : State,
    (∀ (k : RoundKeys) (m : Payload), s.fits → s.input.length ≠ 0 → s.input.length % 16 = 0 → s.rkv = true →
      s.rk = some k → unpadBytes (decryptBlocks s.input k) = some m →
      exec .ecbd s = .next (s.respond ⟨.ok, m, []⟩)) ∧
    (∀ k : RoundKeys, s.fits → s.input.length ≠ 0 → s.input.length % 16 = 0 → s.rkv = true → s.rk = some k →
      unpadBytes (decryptBlocks s.input k) = none → exec .ecbd s = .next (s.raise .invalidPadding)) ∧
    (s.fits → s.input.length ≠ 0 → s.input.length % 16 = 0 → s.rkv = false →
      exec .ecbd s = .next (s.raise .noKey)) ∧
    (s.fits → (s.input.length = 0 ∨ s.input.length % 16 ≠ 0) →
      exec .ecbd s = .next (s.raise .invalidBlockLength)) ∧
    (¬s.fits → exec .ecbd s = .next (s.raise .invalidPayloadLength))
end

