-- ==== Sys2Proof/Laws/Cipher.lean ====
section
/-! SUPPORT. The small lemmas of cipher States, blocks and the word list of the key schedule. -/

namespace Sys2Proof.Machine

@[ext] theorem CipherState.ext_cells {s t : CipherState} (h : ∀ r c, s.cell r c = t.cell r c) : s = t := by
  obtain ⟨⟨_, _, _, _⟩, ⟨_, _, _, _⟩, ⟨_, _, _, _⟩, ⟨_, _, _, _⟩⟩ := s
  obtain ⟨⟨_, _, _, _⟩, ⟨_, _, _, _⟩, ⟨_, _, _, _⟩, ⟨_, _, _, _⟩⟩ := t
  have h00 := h 0 0; have h10 := h 1 0; have h20 := h 2 0; have h30 := h 3 0
  have h01 := h 0 1; have h11 := h 1 1; have h21 := h 2 1; have h31 := h 3 1
  have h02 := h 0 2; have h12 := h 1 2; have h22 := h 2 2; have h32 := h 3 2
  have h03 := h 0 3; have h13 := h 1 3; have h23 := h 2 3; have h33 := h 3 3
  simp only [CipherState.cell, CipherState.column, wordByte] at *
  simp_all

@[simp] theorem CipherState.column_ofColumns (f : Fin 4 → Word) (c : Fin 4) :
    (CipherState.ofColumns f).column c = f c := by
  fin_cases c <;> rfl

@[simp] theorem CipherState.cell_ofCells (f : Fin 4 → Fin 4 → Byte) (r c : Fin 4) :
    (CipherState.ofCells f).cell r c = f r c := by
  fin_cases r <;> fin_cases c <;> rfl

@[simp] theorem CipherState.cell_mapCells (f : Byte → Byte) (s : CipherState) (r c : Fin 4) :
    (s.mapCells f).cell r c = f (s.cell r c) := by
  simp [CipherState.mapCells]

@[simp] theorem wordByte_xor (a b : Word) (k : Fin 4) : wordByte (a.xor b) k = wordByte a k ^^^ wordByte b k := by
  fin_cases k <;> rfl

@[simp] theorem length_keyWords (key : Payload) : (keyWords key).length = 8 := by simp [keyWords]

/-- The recurrence appends one word for each of its steps. -/
@[simp] theorem length_extendWords (n : Nat) (ws : List Word) : (extendWords n ws).length = ws.length + n := by
  induction n generalizing ws with
  | zero => rfl
  | succ n ih => simp [extendWords, ih]; omega

/-- The recurrence leaves the words already made alone. -/
theorem getD_extendWords_of_lt (n : Nat) (ws : List Word) {i : Nat} (h : i < ws.length) :
    (extendWords n ws).getD i .zero = ws.getD i .zero := by
  induction n generalizing ws with
  | zero => rfl
  | succ n ih =>
    rw [extendWords, ih _ (by simp; omega)]
    simp [List.getElem?_append_left h]

/-- A State in block order is its columns one after the other. -/
theorem stateToBlock_toList (s : CipherState) :
    (stateToBlock s).toList = s.c0.bytes ++ s.c1.bytes ++ s.c2.bytes ++ s.c3.bytes := by
  rfl

/-- Column `c` of round key `r` is word `4r + c`. -/
@[simp] theorem column_reshapeWords (ws : List Word) (r : Fin 15) (c : Fin 4) :
    ((reshapeWords ws)[r]).column c = ws.getD (4 * r.val + c.val) .zero := by
  simp [reshapeWords]

/-- The first eight words are the key's. -/
theorem expandKey_getD_of_lt (key : Payload) {j : Nat} (h : j < 8) : (expandKey key).getD j .zero = wordAt key j := by
  rw [expandKey, getD_extendWords_of_lt _ _ (by simpa using h)]
  simp [keyWords, h]

/-- The word of bytes `4j .. 4j+3`. -/
theorem wordAt_bytes (l : Payload) {j : Nat} (h : 4 * j + 4 ≤ l.length) :
    (wordAt l j).bytes = (l.drop (4 * j)).take 4 := by
  apply List.ext_getElem
  · simp [Word.bytes]; omega
  · intro n h1 h2
    have : n < 4 := by simpa [Word.bytes] using h1
    interval_cases n <;> simp [wordAt, Word.bytes, List.getD] <;> rw [List.getElem?_eq_getElem (by omega)] <;> rfl

/-- The words of the recurrence, one step at a time. -/
theorem getD_extendWords_length (n : Nat) (ws : List Word) :
    (extendWords (n + 1) ws).getD ws.length .zero
      = (scheduleCore ws.length (ws.getD (ws.length - 1) .zero)).xor (ws.getD (ws.length - 8) .zero) := by
  rw [extendWords, getD_extendWords_of_lt _ _ (by simp)]
  simp

/-- A recurrence of `m + n` steps is `n` steps after `m`. -/
theorem extendWords_add (m n : Nat) (ws : List Word) : extendWords (m + n) ws = extendWords n (extendWords m ws) := by
  induction m generalizing ws with
  | zero => simp [extendWords]
  | succ m ih => rw [Nat.succ_add, extendWords, extendWords, ih]

end Sys2Proof.Machine
end

