-- ==== Sys2Proof/Laws/PerInstr.lean ====
section
/-! SUPPORT. Facts stated of every command as syntax, one lemma a constructor. -/

namespace Sys2Proof.Laws.EncodedFields

/-- The fields of the encoded word are the command's OPC, IDX and TR, and RSV is 0 (30_encoding.md R46). -/
def Statement (i : Instr) : Prop := wordFields (encode i) = ⟨i.opcode, i.index, i.traceBit, 0⟩

theorem gfmul : Statement .gfmul := by unfold Statement; decide
theorem xt2 : Statement .xt2 := by unfold Statement; decide
theorem xt3 : Statement .xt3 := by unfold Statement; decide
theorem xt9 : Statement .xt9 := by unfold Statement; decide
theorem xt11 : Statement .xt11 := by unfold Statement; decide
theorem xt13 : Statement .xt13 := by unfold Statement; decide
theorem xt14 : Statement .xt14 := by unfold Statement; decide
theorem sbox : Statement .sbox := by unfold Statement; decide
theorem isbox : Statement .isbox := by unfold Statement; decide
theorem rcon (idx : BitVec 4) : Statement (.rcon idx) := by
  unfold Statement
  revert idx
  decide
theorem ldst : Statement .ldst := by unfold Statement; decide
theorem rdst : Statement .rdst := by unfold Statement; decide
theorem subb : Statement .subb := by unfold Statement; decide
theorem isubb : Statement .isubb := by unfold Statement; decide
theorem shr : Statement .shr := by unfold Statement; decide
theorem ishr : Statement .ishr := by unfold Statement; decide
theorem mixc : Statement .mixc := by unfold Statement; decide
theorem imixc : Statement .imixc := by unfold Statement; decide
theorem addrk (idx : BitVec 4) : Statement (.addrk idx) := by
  unfold Statement
  revert idx
  decide
theorem rotw : Statement .rotw := by unfold Statement; decide
theorem subw : Statement .subw := by unfold Statement; decide
theorem setkey : Statement .setkey := by unfold Statement; decide
theorem rdrk (idx : BitVec 4) : Statement (.rdrk idx) := by
  unfold Statement
  revert idx
  decide
theorem encb (tr : Bool) : Statement (.encb tr) := by
  unfold Statement
  revert tr
  decide
theorem decb (tr : Bool) : Statement (.decb tr) := by
  unfold Statement
  revert tr
  decide
theorem pad : Statement .pad := by unfold Statement; decide
theorem unpad : Statement .unpad := by unfold Statement; decide
theorem ecbe : Statement .ecbe := by unfold Statement; decide
theorem ecbd : Statement .ecbd := by unfold Statement; decide

end Sys2Proof.Laws.EncodedFields
end

