-- ==== Sys2Proof/Laws/Decode.lean ====
section
/-! SUPPORT. What the parts of the decoder can answer: the fields of an encoded word, the form of an operation
code, and the two lemmas from which a word's decoding is read back. -/

namespace Sys2Proof

/-- The fields of an encoded command. -/
theorem wordFields_encode (i : Instr) : wordFields (encode i) = ⟨i.opcode, i.index, i.traceBit, 0⟩ := by
  cases i with
  | rcon idx => exact Laws.EncodedFields.rcon idx
  | addrk idx => exact Laws.EncodedFields.addrk idx
  | rdrk idx => exact Laws.EncodedFields.rdrk idx
  | encb tr => exact Laws.EncodedFields.encb tr
  | decb tr => exact Laws.EncodedFields.decb tr
  | _ => decide

/-- The form of a command's operation code. -/
def formOf : Instr → CommandForm
  | .rcon _ => .indexed .rcon
  | .addrk _ => .indexed .addrk
  | .rdrk _ => .indexed .rdrk
  | .encb _ => .traced .encb
  | .decb _ => .traced .decb
  | i => .plain i

/-- An assigned operation code has its command's form. -/
theorem commandForm_opcode (i : Instr) : commandForm i.opcode = some (formOf i) := by cases i <;> rfl

/-- Only the operation codes of commands have a form. -/
theorem commandForm_eq_some {opc : BitVec 8} {form : CommandForm} (h : commandForm opc = some form) :
    ∃ i : Instr, i.opcode = opc ∧ form = formOf i := by
  have key : ∀ (n : Nat) (i : Instr), opc.toNat = n → i.opcode.toNat = n → i.opcode = opc :=
    fun n i h1 h2 => BitVec.eq_of_toNat_eq (h2.trans h1.symm)
  unfold commandForm at h
  split at h
  · cases h; exact ⟨.gfmul, key _ _ ‹_› rfl, rfl⟩
  · cases h; exact ⟨.xt2, key _ _ ‹_› rfl, rfl⟩
  · cases h; exact ⟨.xt3, key _ _ ‹_› rfl, rfl⟩
  · cases h; exact ⟨.xt9, key _ _ ‹_› rfl, rfl⟩
  · cases h; exact ⟨.xt11, key _ _ ‹_› rfl, rfl⟩
  · cases h; exact ⟨.xt13, key _ _ ‹_› rfl, rfl⟩
  · cases h; exact ⟨.xt14, key _ _ ‹_› rfl, rfl⟩
  · cases h; exact ⟨.sbox, key _ _ ‹_› rfl, rfl⟩
  · cases h; exact ⟨.isbox, key _ _ ‹_› rfl, rfl⟩
  · cases h; exact ⟨.rcon 0, key _ _ ‹_› rfl, rfl⟩
  · cases h; exact ⟨.ldst, key _ _ ‹_› rfl, rfl⟩
  · cases h; exact ⟨.rdst, key _ _ ‹_› rfl, rfl⟩
  · cases h; exact ⟨.subb, key _ _ ‹_› rfl, rfl⟩
  · cases h; exact ⟨.isubb, key _ _ ‹_› rfl, rfl⟩
  · cases h; exact ⟨.shr, key _ _ ‹_› rfl, rfl⟩
  · cases h; exact ⟨.ishr, key _ _ ‹_› rfl, rfl⟩
  · cases h; exact ⟨.mixc, key _ _ ‹_› rfl, rfl⟩
  · cases h; exact ⟨.imixc, key _ _ ‹_› rfl, rfl⟩
  · cases h; exact ⟨.addrk 0, key _ _ ‹_› rfl, rfl⟩
  · cases h; exact ⟨.rotw, key _ _ ‹_› rfl, rfl⟩
  · cases h; exact ⟨.subw, key _ _ ‹_› rfl, rfl⟩
  · cases h; exact ⟨.setkey, key _ _ ‹_› rfl, rfl⟩
  · cases h; exact ⟨.rdrk 0, key _ _ ‹_› rfl, rfl⟩
  · cases h; exact ⟨.encb false, key _ _ ‹_› rfl, rfl⟩
  · cases h; exact ⟨.decb false, key _ _ ‹_› rfl, rfl⟩
  · cases h; exact ⟨.pad, key _ _ ‹_› rfl, rfl⟩
  · cases h; exact ⟨.unpad, key _ _ ‹_› rfl, rfl⟩
  · cases h; exact ⟨.ecbe, key _ _ ‹_› rfl, rfl⟩
  · cases h; exact ⟨.ecbd, key _ _ ‹_› rfl, rfl⟩
  · cases h

/-- The fields of a word determine it. -/
theorem word_eq_of_fields_eq {v w : BitVec 32} (h : wordFields v = wordFields w) : v = w := by
  have hf := congrArg WordFields.opc h
  have hi := congrArg WordFields.idx h
  have ht := congrArg WordFields.tr h
  have hr := congrArg WordFields.rsv h
  simp only [wordFields] at hf hi ht hr
  apply BitVec.eq_of_getLsbD_eq
  intro k hk
  have e1 := congrArg (·.getLsbD k) hf
  have e2 := congrArg (·.getLsbD (k - 8)) hi
  have e3 := congrArg (·.getLsbD (k - 13)) hr
  simp only [BitVec.getLsbD_extractLsb'] at e1 e2 e3
  by_cases h8 : k < 8
  · simpa [h8] using e1
  by_cases h12 : k < 12
  · simpa [show k - 8 < 4 by omega, show 8 + (k - 8) = k by omega] using e2
  by_cases h13 : k = 12
  · subst h13; exact ht
  · simpa [show k - 13 < 19 by omega, show 13 + (k - 13) = k by omega] using e3

/-- The decode check keeps exactly the legal commands, unchanged. -/
theorem checkWellFormed_eq_ok_iff (c : Config) (i j : Instr) :
    checkWellFormed c i = .ok j ↔ i.wf c = true ∧ i = j := by
  unfold checkWellFormed
  cases i.wf c <;> simp

/-- A form that accepts IDX and TR gives a legal command of its operation code with that IDX and TR. -/
theorem fillForm_eq_ok {c : Config} {idx : BitVec 4} {tr : Bool} {i j : Instr}
    (h : fillForm c idx tr (formOf i) = .ok j) :
    j.opcode = i.opcode ∧ j.index = idx ∧ j.traceBit = tr ∧ j.wf c = true := by
  cases i <;> simp only [formOf, fillForm] at h <;> (repeat' split at h) <;>
    first
      | (cases h; done)
      | (obtain ⟨hw, rfl⟩ := (checkWellFormed_eq_ok_iff _ _ _).mp h
         simp_all [Instr.opcode, Instr.index, Instr.traceBit])

end Sys2Proof
end

