-- ==== Sys2Proof/Laws/State.lean ====
section
/-! SUPPORT. What each update of the state does to each field, true by definition, so that no later proof
unfolds a record update. -/

namespace Sys2Proof.Machine

@[simp] theorem State.respond_cfg (s : State) (r : Response) : (s.respond r).cfg = s.cfg := rfl
@[simp] theorem State.respond_rk (s : State) (r : Response) : (s.respond r).rk = s.rk := rfl
@[simp] theorem State.respond_rkv (s : State) (r : Response) : (s.respond r).rkv = s.rkv := rfl
@[simp] theorem State.respond_st (s : State) (r : Response) : (s.respond r).st = s.st := rfl
@[simp] theorem State.respond_stv (s : State) (r : Response) : (s.respond r).stv = s.stv := rfl
@[simp] theorem State.respond_input (s : State) (r : Response) : (s.respond r).input = [] := rfl
@[simp] theorem State.respond_inbox (s : State) (r : Response) : (s.respond r).inbox = s.inbox := rfl
@[simp] theorem State.respond_outbox (s : State) (r : Response) : (s.respond r).outbox = s.outbox ++ [r] := rfl

@[simp] theorem State.raise_cfg (s : State) (e : Status) : (s.raise e).cfg = s.cfg := rfl
@[simp] theorem State.raise_rk (s : State) (e : Status) : (s.raise e).rk = s.rk := rfl
@[simp] theorem State.raise_rkv (s : State) (e : Status) : (s.raise e).rkv = s.rkv := rfl
@[simp] theorem State.raise_st (s : State) (e : Status) : (s.raise e).st = s.st := rfl
@[simp] theorem State.raise_stv (s : State) (e : Status) : (s.raise e).stv = s.stv := rfl
@[simp] theorem State.raise_input (s : State) (e : Status) : (s.raise e).input = [] := rfl
@[simp] theorem State.raise_inbox (s : State) (e : Status) : (s.raise e).inbox = s.inbox := rfl
@[simp] theorem State.raise_outbox (s : State) (e : Status) : (s.raise e).outbox = s.outbox ++ [⟨e, [], []⟩] := rfl

@[simp] theorem State.writeKeys_cfg (s : State) (k : RoundKeys) : (s.writeKeys k).cfg = s.cfg := rfl
@[simp] theorem State.writeKeys_rk (s : State) (k : RoundKeys) : (s.writeKeys k).rk = some k := rfl
@[simp] theorem State.writeKeys_rkv (s : State) (k : RoundKeys) : (s.writeKeys k).rkv = true := rfl
@[simp] theorem State.writeKeys_st (s : State) (k : RoundKeys) : (s.writeKeys k).st = s.st := rfl
@[simp] theorem State.writeKeys_stv (s : State) (k : RoundKeys) : (s.writeKeys k).stv = s.stv := rfl
@[simp] theorem State.writeKeys_input (s : State) (k : RoundKeys) : (s.writeKeys k).input = s.input := rfl
@[simp] theorem State.writeKeys_inbox (s : State) (k : RoundKeys) : (s.writeKeys k).inbox = s.inbox := rfl
@[simp] theorem State.writeKeys_outbox (s : State) (k : RoundKeys) : (s.writeKeys k).outbox = s.outbox := rfl

@[simp] theorem State.loadStepState_cfg (s : State) (t : CipherState) : (s.loadStepState t).cfg = s.cfg := rfl
@[simp] theorem State.loadStepState_rk (s : State) (t : CipherState) : (s.loadStepState t).rk = s.rk := rfl
@[simp] theorem State.loadStepState_rkv (s : State) (t : CipherState) : (s.loadStepState t).rkv = s.rkv := rfl
@[simp] theorem State.loadStepState_st (s : State) (t : CipherState) : (s.loadStepState t).st = some t := rfl
@[simp] theorem State.loadStepState_stv (s : State) (t : CipherState) : (s.loadStepState t).stv = true := rfl
@[simp] theorem State.loadStepState_input (s : State) (t : CipherState) : (s.loadStepState t).input = s.input := rfl
@[simp] theorem State.loadStepState_inbox (s : State) (t : CipherState) : (s.loadStepState t).inbox = s.inbox := rfl
@[simp] theorem State.loadStepState_outbox (s : State) (t : CipherState) : (s.loadStepState t).outbox = s.outbox := rfl

@[simp] theorem State.writeStepState_cfg (s : State) (t : CipherState) : (s.writeStepState t).cfg = s.cfg := rfl
@[simp] theorem State.writeStepState_rk (s : State) (t : CipherState) : (s.writeStepState t).rk = s.rk := rfl
@[simp] theorem State.writeStepState_rkv (s : State) (t : CipherState) : (s.writeStepState t).rkv = s.rkv := rfl
@[simp] theorem State.writeStepState_st (s : State) (t : CipherState) : (s.writeStepState t).st = some t := rfl
@[simp] theorem State.writeStepState_stv (s : State) (t : CipherState) : (s.writeStepState t).stv = s.stv := rfl
@[simp] theorem State.writeStepState_input (s : State) (t : CipherState) : (s.writeStepState t).input = s.input := rfl
@[simp] theorem State.writeStepState_inbox (s : State) (t : CipherState) : (s.writeStepState t).inbox = s.inbox := rfl
@[simp] theorem State.writeStepState_outbox (s : State) (t : CipherState) : (s.writeStepState t).outbox = s.outbox := rfl

@[simp] theorem State.accept_cfg (s : State) (p : Payload) : (s.accept p).cfg = s.cfg := rfl
@[simp] theorem State.accept_rk (s : State) (p : Payload) : (s.accept p).rk = s.rk := rfl
@[simp] theorem State.accept_rkv (s : State) (p : Payload) : (s.accept p).rkv = s.rkv := rfl
@[simp] theorem State.accept_st (s : State) (p : Payload) : (s.accept p).st = s.st := rfl
@[simp] theorem State.accept_stv (s : State) (p : Payload) : (s.accept p).stv = s.stv := rfl
@[simp] theorem State.accept_input (s : State) (p : Payload) : (s.accept p).input = p := rfl
@[simp] theorem State.accept_inbox (s : State) (p : Payload) : (s.accept p).inbox = s.inbox := rfl
@[simp] theorem State.accept_outbox (s : State) (p : Payload) : (s.accept p).outbox = s.outbox := rfl

@[simp] theorem State.resetEvent_cfg (s : State) : s.resetEvent.cfg = s.cfg := rfl
@[simp] theorem State.resetEvent_rk (s : State) : s.resetEvent.rk = none := rfl
@[simp] theorem State.resetEvent_rkv (s : State) : s.resetEvent.rkv = false := rfl
@[simp] theorem State.resetEvent_st (s : State) : s.resetEvent.st = none := rfl
@[simp] theorem State.resetEvent_stv (s : State) : s.resetEvent.stv = false := rfl
@[simp] theorem State.resetEvent_input (s : State) : s.resetEvent.input = [] := rfl
@[simp] theorem State.resetEvent_inbox (s : State) : s.resetEvent.inbox = s.inbox := rfl
@[simp] theorem State.resetEvent_outbox (s : State) : s.resetEvent.outbox = s.outbox := rfl

/-- Raising a status is delivering a response with nothing in it. -/
theorem State.raise_eq_respond (s : State) (e : Status) : s.raise e = s.respond ⟨e, [], []⟩ := rfl

end Sys2Proof.Machine
end

