-- ==== Sys2Proof/Laws/Ops.lean ====
section
/-! SUPPORT. One lemma for each shared operation that says everything it can answer; proofs cite these
instead of unfolding the operations. -/

namespace Sys2Proof.Machine

@[simp] theorem State.finish_ok (s : State) (c : Completion) :
    s.finish (.ok c) = .next (c.state.respond ⟨.ok, c.out, c.trace⟩) := rfl

@[simp] theorem State.finish_error (s : State) (e : Status) : s.finish (.error e) = .next (s.raise e) := rfl

/-- Binding an answer that succeeded. -/
@[simp] theorem except_ok_bind {α β : Type} (a : α) (f : α → Except Status β) : (Except.ok a >>= f) = f a := rfl

/-- Binding an answer that failed. -/
@[simp] theorem except_error_bind {α β : Type} (e : Status) (f : α → Except Status β) :
    ((Except.error e : Except Status α) >>= f) = .error e := rfl

@[simp] theorem except_pure {α : Type} (a : α) : (pure a : Except Status α) = .ok a := rfl

@[simp] theorem except_throw {α : Type} (e : Status) : (throw e : Except Status α) = .error e := rfl

/-- A payload is within the bound exactly when it does not exceed it. -/
theorem exceedsMax_eq_false_iff (s : State) : exceedsMax s.cfg s.input.length = false ↔ s.fits := by
  unfold exceedsMax State.fits
  cases s.cfg.maxMsgBytes <;> simp

theorem exceedsMax_eq_true_iff (s : State) : exceedsMax s.cfg s.input.length = true ↔ ¬s.fits := by
  rw [← exceedsMax_eq_false_iff, Bool.not_eq_false]

/-- The checks of R133 that need only the word and the payload pass exactly when the command is legal, its
payload is within the bound, and its length is one the command accepts. -/
theorem takePayload_eq_ok_iff (i : Instr) (s : State) (p : Payload) :
    takePayload i s = .ok p ↔
      i.wf s.cfg = true ∧ s.fits ∧ (payloadForm i).accepts s.input.length = true ∧ p = s.input := by
  rw [← exceedsMax_eq_false_iff]
  unfold takePayload
  cases i.wf s.cfg <;> cases exceedsMax s.cfg s.input.length <;>
    cases (payloadForm i).accepts s.input.length <;> simp [eq_comm]

/-- A payload the three checks accept. -/
theorem takePayload_ok {i : Instr} {s : State} (hw : i.wf s.cfg = true) (hf : s.fits)
    (ha : (payloadForm i).accepts s.input.length = true) : takePayload i s = .ok s.input :=
  (takePayload_eq_ok_iff i s s.input).mpr ⟨hw, hf, ha, rfl⟩

/-- The three ways those checks fail, in their order. -/
theorem takePayload_eq_error_iff (i : Instr) (s : State) (e : Status) :
    takePayload i s = .error e ↔
      (i.wf s.cfg = false ∧ e = .illegalCommand) ∨
      (i.wf s.cfg = true ∧ ¬s.fits ∧ e = .invalidPayloadLength) ∨
      (i.wf s.cfg = true ∧ s.fits ∧ (payloadForm i).accepts s.input.length = false ∧ e = wrongLengthStatus i) := by
  rw [← exceedsMax_eq_false_iff, Bool.not_eq_false]
  unfold takePayload
  cases i.wf s.cfg <;> cases exceedsMax s.cfg s.input.length <;>
    cases (payloadForm i).accepts s.input.length <;> simp [eq_comm]

/-- RK is read exactly when RKV = 1 and RK holds a value. -/
theorem readKeys_eq_ok_iff (s : State) (k : RoundKeys) :
    s.readKeys = .ok k ↔ s.rkv = true ∧ s.rk = some k := by
  unfold State.readKeys
  cases s.rkv <;> cases s.rk <;> simp

/-- Reading RK can fail with NO_KEY only. -/
theorem readKeys_eq_error_iff (s : State) (e : Status) :
    s.readKeys = .error e ↔ (s.rkv = false ∨ s.rk = none) ∧ e = .noKey := by
  unfold State.readKeys
  cases s.rkv <;> cases s.rk <;> simp [eq_comm]

/-- ST is read exactly when STV = 1 and ST holds a value. -/
theorem readStepState_eq_ok_iff (s : State) (t : CipherState) :
    s.readStepState = .ok t ↔ s.stv = true ∧ s.st = some t := by
  unfold State.readStepState
  cases s.stv <;> cases s.st <;> simp

/-- Reading ST can fail with NO_STATE only. -/
theorem readStepState_eq_error_iff (s : State) (e : Status) :
    s.readStepState = .error e ↔ (s.stv = false ∨ s.st = none) ∧ e = .noState := by
  unfold State.readStepState
  cases s.stv <;> cases s.st <;> simp [eq_comm]

/-- A one-byte command answers the function of its byte, or the status its payload check gives, and
changes no register. -/
theorem byteCommand_eq (s : State) (i : Instr) (f : Byte → Byte) :
    s.byteCommand i f = (takePayload i s).map fun p => ⟨s, [f (payloadByte p 0)], []⟩ := by
  unfold State.byteCommand
  cases takePayload i s <;> rfl

/-- A one-word command, as `byteCommand_eq`. -/
theorem wordCommand_eq (s : State) (i : Instr) (f : Word → Word) :
    s.wordCommand i f = (takePayload i s).map fun p => ⟨s, (f (wordAt p 0)).bytes, []⟩ := by
  unfold State.wordCommand
  cases takePayload i s <;> rfl

/-- A transformation command that succeeds applies its function to the value of ST and writes ST alone. -/
theorem transformStep_eq_ok_iff (s : State) (i : Instr) (f : CipherState → CipherState) (c : Completion) :
    s.transformStep i f = .ok c ↔
      (∃ p, takePayload i s = .ok p) ∧ ∃ t, s.stv = true ∧ s.st = some t ∧ c = ⟨s.writeStepState (f t), [], []⟩ := by
  unfold State.transformStep
  cases hp : takePayload i s with
  | error e => simp
  | ok p =>
    cases ht : s.readStepState with
    | error e =>
      have h := (readStepState_eq_error_iff s e).mp ht
      simp only [except_ok_bind, except_error_bind, reduceCtorEq, false_iff]
      rintro ⟨-, t, hv, hs, -⟩
      rcases h.1 with h | h <;> simp_all
    | ok t =>
      obtain ⟨hv, hs⟩ := (readStepState_eq_ok_iff s t).mp ht
      simp [hv, hs, eq_comm]

/-- What the host does next is the head of its stream. -/
theorem nextEvent_eq_some_iff (s t : State) (e : HostEvent) :
    s.nextEvent = some (e, t) ↔ ∃ rest, s.inbox = e :: rest ∧ t = { s with inbox := rest } := by
  unfold State.nextEvent
  cases s.inbox <;> simp [eq_comm]

theorem nextEvent_eq_none_iff (s : State) : s.nextEvent = none ↔ s.inbox = [] := by
  unfold State.nextEvent
  cases s.inbox <;> simp

/-- A command that ends in an outcome of `finish` answers a next state. -/
theorem finish_next (s : State) (e : Except Status Completion) : ∃ t, s.finish e = .next t := by
  cases e <;> exact ⟨_, rfl⟩

end Sys2Proof.Machine
end

