-- ==== Sys2Proof/Laws/Exec.lean ====
section
/-! SUPPORT. What a command can do, said once: either it raises a status and nothing else, or it succeeds with
one of four effects. Every frame and invariant follows from `exec_cases` without unfolding a meaning. -/

namespace Sys2Proof.Machine

/-- The effect of a command that succeeds: the registers it leaves, its output and its trace. -/
inductive CommandEffect (i : Instr) (s : State) : Completion → Prop
  /-- SETKEY writes RK and RKV. -/
  | keys (hi : i = .setkey) (hl : s.input.length = 32) :
      CommandEffect i s ⟨s.writeKeys (roundKeysOf s.input), [], []⟩
  /-- LDST writes ST and STV. -/
  | load (hi : i = .ldst) (hl : s.input.length = 16) :
      CommandEffect i s ⟨s.loadStepState (blockToState (blockOfBytes s.input)), [], []⟩
  /-- A transformation command writes ST, which held a value. -/
  | transform (t : CipherState) (hw : writesStepState i = true) (hi : i ≠ .ldst) (hv : s.stv = true)
      (hs : s.st.isSome = true) : CommandEffect i s ⟨s.writeStepState t, [], []⟩
  /-- Every other command writes no register; only ENCB and DECB give a trace. -/
  | answer (out : Payload) (tr : List Block) (hi : i ≠ .setkey) (hw : writesStepState i = false)
      (ht : tr = [] ∨ ∃ b k, tr = encryptTrace b k ∨ tr = decryptTrace b k) : CommandEffect i s ⟨s, out, tr⟩

/-- SETKEY succeeds only by writing the expansion of its payload. -/
theorem setkey_effect {s : State} {c : Completion}
    (h : (do let p ← takePayload .setkey s; return ⟨s.writeKeys (roundKeysOf p), [], []⟩ : Except Status Completion)
      = .ok c) : CommandEffect .setkey s c := by
  cases hp : takePayload .setkey s <;> simp [hp] at h
  obtain ⟨-, -, hl, rfl⟩ := (takePayload_eq_ok_iff _ _ _).mp hp
  subst h
  exact .keys rfl (by simpa [payloadForm, PayloadForm.accepts] using hl)

/-- A one-byte command succeeds only with an answer. -/
theorem byteCommand_effect {s : State} {i : Instr} {f : Byte → Byte} {c : Completion} (hi : i ≠ .setkey)
    (hw : writesStepState i = false) (h : s.byteCommand i f = .ok c) : CommandEffect i s c := by
  rw [byteCommand_eq] at h
  cases hp : takePayload i s <;> simp [hp, Except.map] at h
  subst h
  exact .answer _ _ hi hw (.inl rfl)

/-- A one-word command succeeds only with an answer. -/
theorem wordCommand_effect {s : State} {i : Instr} {f : Word → Word} {c : Completion} (hi : i ≠ .setkey)
    (hw : writesStepState i = false) (h : s.wordCommand i f = .ok c) : CommandEffect i s c := by
  rw [wordCommand_eq] at h
  cases hp : takePayload i s <;> simp [hp, Except.map] at h
  subst h
  exact .answer _ _ hi hw (.inl rfl)

/-- A transformation command succeeds only by writing ST. -/
theorem transformStep_effect {s : State} {i : Instr} {f : CipherState → CipherState} {c : Completion}
    (hw : writesStepState i = true) (hi : i ≠ .ldst) (h : s.transformStep i f = .ok c) : CommandEffect i s c := by
  obtain ⟨-, t, hv, hs, rfl⟩ := (transformStep_eq_ok_iff _ _ _ _).mp h
  exact .transform _ hw hi hv (by simp [hs])

/-- Every command is `finish` of an answer whose success is one of the four effects. -/
theorem exec_eq_finish (i : Instr) (s : State) :
    ∃ e : Except Status Completion, exec i s = s.finish e ∧ ∀ c, e = .ok c → CommandEffect i s c := by
  cases i <;> refine ⟨_, rfl, fun c h => ?_⟩
  case setkey => exact setkey_effect h
  case ldst =>
    cases hp : takePayload .ldst s <;> simp [hp] at h
    obtain ⟨-, -, hl, rfl⟩ := (takePayload_eq_ok_iff _ _ _).mp hp
    subst h
    exact .load rfl (by simpa [payloadForm, PayloadForm.accepts] using hl)
  case addrk idx =>
    cases hp : takePayload (.addrk idx) s <;> simp [hp] at h
    cases hk : s.readKeys <;> simp [hk] at h
    cases ht : s.readStepState <;> simp [ht] at h
    obtain ⟨hv, hs⟩ := (readStepState_eq_ok_iff _ _).mp ht
    subst h
    exact .transform _ rfl (by simp) hv (by simp [hs])
  case encb tr =>
    cases hp : takePayload (.encb tr) s <;> simp [hp] at h
    cases hk : s.readKeys <;> simp [hk] at h
    subst h
    cases tr
    · exact .answer _ _ (by simp) rfl (.inl rfl)
    · exact .answer _ _ (by simp) rfl (.inr ⟨_, _, .inl rfl⟩)
  case decb tr =>
    cases hp : takePayload (.decb tr) s <;> simp [hp] at h
    cases hk : s.readKeys <;> simp [hk] at h
    subst h
    cases tr
    · exact .answer _ _ (by simp) rfl (.inl rfl)
    · exact .answer _ _ (by simp) rfl (.inr ⟨_, _, .inr rfl⟩)
  case rdrk idx =>
    cases hp : takePayload (.rdrk idx) s <;> simp [hp] at h
    cases hk : s.readKeys <;> simp [hk] at h
    subst h
    exact .answer _ _ (by simp) rfl (.inl rfl)
  case rdst =>
    cases hp : takePayload .rdst s <;> simp [hp] at h
    cases ht : s.readStepState <;> simp [ht] at h
    subst h
    exact .answer _ _ (by simp) rfl (.inl rfl)
  case ecbe =>
    cases hp : takePayload .ecbe s <;> simp [hp] at h
    cases hk : s.readKeys <;> simp [hk] at h
    subst h
    exact .answer _ _ (by simp) rfl (.inl rfl)
  case ecbd =>
    cases hp : takePayload .ecbd s with
    | error e => simp [hp] at h
    | ok p =>
      cases hk : s.readKeys with
      | error e => simp [hp, hk] at h
      | ok k =>
        cases hd : decryptStream p k <;> simp [hp, hk, hd] at h
        subst h
        exact .answer _ _ (by simp) rfl (.inl rfl)
  case unpad =>
    cases hp : takePayload .unpad s with
    | error e => simp [hp] at h
    | ok p =>
      cases hd : unpadBytes p <;> simp [hp, hd] at h
      subst h
      exact .answer _ _ (by simp) rfl (.inl rfl)
  case pad =>
    cases hp : takePayload .pad s <;> simp [hp] at h
    subst h
    exact .answer _ _ (by simp) rfl (.inl rfl)
  case gfmul =>
    cases hp : takePayload .gfmul s <;> simp [hp] at h
    subst h
    exact .answer _ _ (by simp) rfl (.inl rfl)
  case rcon idx =>
    cases hp : takePayload (.rcon idx) s <;> simp [hp] at h
    subst h
    exact .answer _ _ (by simp) rfl (.inl rfl)
  case rotw | subw => exact wordCommand_effect (by simp) rfl h
  case subb | isubb | shr | ishr | mixc | imixc => exact transformStep_effect rfl (by simp) h
  all_goals exact byteCommand_effect (by simp) rfl h

/-- A command either raises a status and does nothing else, or succeeds with one of the four effects. -/
theorem exec_cases (i : Instr) (s : State) :
    (∃ e, exec i s = .next (s.raise e)) ∨
    ∃ c, CommandEffect i s c ∧ exec i s = .next (c.state.respond ⟨.ok, c.out, c.trace⟩) := by
  obtain ⟨e, he, hc⟩ := exec_eq_finish i s
  cases e with
  | error e => exact .inl ⟨e, by rw [he]; rfl⟩
  | ok c => exact .inr ⟨c, hc c rfl, by rw [he]; rfl⟩

/-- An effect leaves the parameters, the host's stream and the responses alone. -/
theorem CommandEffect.host_unchanged {i : Instr} {s : State} {c : Completion} (h : CommandEffect i s c) :
    c.state.cfg = s.cfg ∧ c.state.inbox = s.inbox ∧ c.state.outbox = s.outbox := by
  cases h <;> exact ⟨rfl, rfl, rfl⟩

end Sys2Proof.Machine
end

