-- ==== Sys2Proof/Laws/GfArith.lean ====
section
/-! SUPPORT. The small lemmas of the multiplier: doubling is linear, and the loop of gfMultiply only adds to its
accumulator. -/

namespace Sys2Proof.Machine

@[simp] theorem times2_zero : times2 0 = 0 := by decide

/-- Doubling distributes over xor. -/
theorem times2_xor (a b : Byte) : times2 (a ^^^ b) = times2 a ^^^ times2 b := by
  have cancel (x y k : Byte) : (x ^^^ k) ^^^ (y ^^^ k) = x ^^^ y := by
    rw [BitVec.xor_comm y k, BitVec.xor_assoc, ← BitVec.xor_assoc k k y, BitVec.xor_self, BitVec.zero_xor]
  unfold times2
  rw [BitVec.shiftLeft_xor_distrib, BitVec.getLsbD_xor]
  cases a.getLsbD 7 <;> cases b.getLsbD 7 <;> simp [cancel] <;> ac_rfl

/-- What the accumulator of the loop holds at its start is xored into its result. -/
theorem gfLoop_start (n : Nat) (a b p q : Byte) : gfLoop n a b (p ^^^ q) = gfLoop n a b p ^^^ q := by
  induction n generalizing a b p with
  | zero => rfl
  | succ n ih =>
    rw [gfLoop, gfLoop, ← ih]
    congr 1
    cases b.getLsbD 0 <;> simp
    ac_rfl

/-- The loop from any accumulator is the loop from zero, xor that accumulator. -/
theorem gfLoop_eq_xor (n : Nat) (a b p : Byte) : gfLoop n a b p = gfLoop n a b 0 ^^^ p := by
  rw [← gfLoop_start]
  simp

/-- One step of the loop. -/
theorem gfLoop_succ (n : Nat) (a b : Byte) :
    gfLoop (n + 1) a b 0 = gfLoop n (times2 a) (b >>> 1) 0 ^^^ (if b.getLsbD 0 then a else 0) := by
  rw [gfLoop, gfLoop_eq_xor]
  cases b.getLsbD 0 <;> simp

/-- The loop is linear in its first factor. -/
theorem gfLoop_xor_left (n : Nat) (a a' b : Byte) :
    gfLoop n (a ^^^ a') b 0 = gfLoop n a b 0 ^^^ gfLoop n a' b 0 := by
  induction n generalizing a a' b with
  | zero => simp [gfLoop]
  | succ n ih =>
    rw [gfLoop_succ, gfLoop_succ, gfLoop_succ, times2_xor, ih]
    cases b.getLsbD 0 <;> simp
    ac_rfl

end Sys2Proof.Machine
end

