-- ==== Sys2Proof/Tests/Slice0.lean ====
section
/-! SUPPORT. The model's own tests: well-formedness, decoding by words written out from 30_encoding.md R46 and
R51, one or two single steps for each command with results taken from spec/95_test_vectors.md and the rules'
worked examples, and for each statement with hypotheses a witness that meets them. -/

namespace Sys2Proof.Tests

open Sys2Proof.Machine Sys2Proof.Claims

/-! ### Well-formedness (R48 to R50): each check refuses an ill-formed term -/

/-- INSTR false, MAX_MSG_BYTES 15: the other side of each parameter. -/
def smallConfig : Config := ⟨some 15, false⟩

theorem test_wf_rcon_zero : (Instr.rcon 0).wf Config.default = false := by decide
theorem test_wf_rcon_fifteen : (Instr.rcon 15).wf Config.default = false := by decide
theorem test_wf_rcon_bounds : (Instr.rcon 1).wf smallConfig = true ∧ (Instr.rcon 14).wf smallConfig = true := by decide
theorem test_wf_addrk_fifteen : (Instr.addrk 15).wf Config.default = false := by decide
theorem test_wf_addrk_bounds : (Instr.addrk 0).wf smallConfig = true ∧ (Instr.addrk 14).wf smallConfig = true := by decide
theorem test_wf_rdrk_fifteen : (Instr.rdrk 15).wf Config.default = false := by decide
theorem test_wf_rdrk_without_instr : (Instr.rdrk 0).wf smallConfig = false := by decide
theorem test_wf_trace_without_instr :
    (Instr.encb true).wf smallConfig = false ∧ (Instr.decb true).wf smallConfig = false := by decide

/-! ### Decoding: every constructor, by a word written out in binary, fields RSV, TR, IDX, OPC -/

theorem test_decode_gf :
    decode Config.default 0b0000000000000000000_0_0000_00000001#32 = .ok .gfmul ∧
    decode Config.default 0b0000000000000000000_0_0000_00000010#32 = .ok .xt2 ∧
    decode Config.default 0b0000000000000000000_0_0000_00000011#32 = .ok .xt3 ∧
    decode Config.default 0b0000000000000000000_0_0000_00001001#32 = .ok .xt9 ∧
    decode Config.default 0b0000000000000000000_0_0000_00001011#32 = .ok .xt11 ∧
    decode Config.default 0b0000000000000000000_0_0000_00001101#32 = .ok .xt13 ∧
    decode Config.default 0b0000000000000000000_0_0000_00001110#32 = .ok .xt14 := by
  refine ⟨?_, ?_, ?_, ?_, ?_, ?_, ?_⟩ <;> rfl

theorem test_decode_rom :
    decode Config.default 0b0000000000000000000_0_0000_00010000#32 = .ok .sbox ∧
    decode Config.default 0b0000000000000000000_0_0000_00010001#32 = .ok .isbox ∧
    decode Config.default 0b0000000000000000000_0_0111_00010010#32 = .ok (.rcon 7) := by
  refine ⟨?_, ?_, ?_⟩ <;> rfl

theorem test_decode_stepping :
    decode Config.default 0b0000000000000000000_0_0000_00100000#32 = .ok .ldst ∧
    decode Config.default 0b0000000000000000000_0_0000_00100001#32 = .ok .rdst ∧
    decode Config.default 0b0000000000000000000_0_0000_00110000#32 = .ok .subb ∧
    decode Config.default 0b0000000000000000000_0_0000_00110001#32 = .ok .isubb ∧
    decode Config.default 0b0000000000000000000_0_0000_00110010#32 = .ok .shr ∧
    decode Config.default 0b0000000000000000000_0_0000_00110011#32 = .ok .ishr ∧
    decode Config.default 0b0000000000000000000_0_0000_00110100#32 = .ok .mixc ∧
    decode Config.default 0b0000000000000000000_0_0000_00110101#32 = .ok .imixc ∧
    decode Config.default 0b0000000000000000000_0_1110_00110110#32 = .ok (.addrk 14) := by
  refine ⟨?_, ?_, ?_, ?_, ?_, ?_, ?_, ?_, ?_⟩ <;> rfl

theorem test_decode_key_schedule :
    decode Config.default 0b0000000000000000000_0_0000_01000000#32 = .ok .rotw ∧
    decode Config.default 0b0000000000000000000_0_0000_01000001#32 = .ok .subw ∧
    decode Config.default 0b0000000000000000000_0_0000_01000010#32 = .ok .setkey ∧
    decode Config.default 0b0000000000000000000_0_0010_01000011#32 = .ok (.rdrk 2) := by
  refine ⟨?_, ?_, ?_, ?_⟩ <;> rfl

theorem test_decode_block :
    decode Config.default 0b0000000000000000000_0_0000_01010000#32 = .ok (.encb false) ∧
    decode Config.default 0b0000000000000000000_1_0000_01010000#32 = .ok (.encb true) ∧
    decode Config.default 0b0000000000000000000_0_0000_01010001#32 = .ok (.decb false) ∧
    decode Config.default 0b0000000000000000000_1_0000_01010001#32 = .ok (.decb true) := by
  refine ⟨?_, ?_, ?_, ?_⟩ <;> rfl

theorem test_decode_stream :
    decode Config.default 0b0000000000000000000_0_0000_01100000#32 = .ok .pad ∧
    decode Config.default 0b0000000000000000000_0_0000_01100001#32 = .ok .unpad ∧
    decode Config.default 0b0000000000000000000_0_0000_01100010#32 = .ok .ecbe ∧
    decode Config.default 0b0000000000000000000_0_0000_01100011#32 = .ok .ecbd := by
  refine ⟨?_, ?_, ?_, ?_⟩ <;> rfl

/-- The illegal words of 95_test_vectors.md 2.1. -/
theorem test_decode_illegal :
    decode Config.default 0x00000F36 = .error .indexOutOfRange ∧
    decode Config.default 0x00001036 = .error .traceNotAllowed ∧
    decode Config.default 0x00000012 = .error .indexOutOfRange ∧
    decode Config.default 0x00000F12 = .error .indexOutOfRange ∧
    decode Config.default 0x00000150 = .error .indexOutOfRange ∧
    decode Config.default 0x00002050 = .error .reservedBits ∧
    decode Config.default 0x80000062 = .error .reservedBits ∧
    decode Config.default 0x00000000 = .error .unassignedOpcode ∧
    decode Config.default 0x00000037 = .error .unassignedOpcode ∧
    decode Config.default 0x000000FF = .error .unassignedOpcode ∧
    decode smallConfig 0x00000243 = .error .noInstrumentation := by
  refine ⟨?_, ?_, ?_, ?_, ?_, ?_, ?_, ?_, ?_, ?_, ?_⟩ <;> rfl

theorem test_decode_table_word : decodeTableWord 32 0x00000E36 = some (.addrk 14) := by decide

/-! ### One step of each command -/

/-- The core after reset with one command submitted. -/
def submit (s : State) (w : BitVec 32) (p : Payload) : State := { s with inbox := [.command ⟨w, p⟩] }

/-- The last response after an outcome. -/
def answer : Host.Outcome State Fault Refusal → Option Response
  | .next t => t.outbox.getLast?
  | .fault _ => none
  | .refused _ => none

/-- The stepping State after an outcome, in block order. -/
def stepState : Host.Outcome State Fault Refusal → Option Block
  | .next t => t.st.map stateToBlock
  | .fault _ => none
  | .refused _ => none

/-- Round key `r` after an outcome, in block order. -/
def roundKey (r : Fin 15) : Host.Outcome State Fault Refusal → Option Block
  | .next t => t.rk.map fun k => stateToBlock k[r]
  | .fault _ => none
  | .refused _ => none

/-- A response of a status, an output and no trace. -/
def plain (e : Status) (out : Payload) : Option Response := some ⟨e, out, []⟩

/-- The block of a number written in hex. -/
def block (v : Nat) : Block := blockOfBytes (bytesOfNumber 16 v)

/-- The C3 key of 95_test_vectors.md. -/
def c3Key : Payload := bytesOfNumber 32 0x000102030405060708090a0b0c0d0e0f101112131415161718191a1b1c1d1e1f

/-- A core with the C3 key loaded. -/
def keyed : State := { State.reset with rk := some (roundKeysOf c3Key), rkv := true }

/-- A core whose stepping State is the block 000102…0f. -/
def loaded : State := { State.reset with st := some (blockToState (block 0x000102030405060708090a0b0c0d0e0f)), stv := true }

theorem test_gfmul : answer (step (submit State.reset 0x01 [0x57, 0x83])) = plain .ok [0xc1] := by decide
theorem test_gfmul_length : answer (step (submit State.reset 0x01 [0x57])) = plain .invalidPayloadLength [] := by decide
theorem test_xt2 : answer (step (submit State.reset 0x02 [0x80])) = plain .ok [0x1b] := by decide
theorem test_xt3 : answer (step (submit State.reset 0x03 [0x57])) = plain .ok [0xf9] := by decide
theorem test_xt9 : answer (step (submit State.reset 0x09 [0xdb])) = plain .ok [0x59] := by decide
theorem test_xt11 : answer (step (submit State.reset 0x0B [0xff])) = plain .ok [0xa3] := by decide
theorem test_xt13 : answer (step (submit State.reset 0x0D [0x8d])) = plain .ok [0x8b] := by decide
theorem test_xt14 : answer (step (submit State.reset 0x0E [0x1b])) = plain .ok [0x82] := by decide
theorem test_sbox : answer (step (submit State.reset 0x10 [0x53])) = plain .ok [0xed] := by decide
theorem test_isbox : answer (step (submit State.reset 0x11 [0x63])) = plain .ok [0x00] := by decide
theorem test_rcon : answer (step (submit State.reset 0x912 [])) = plain .ok [0x1b] := by decide
theorem test_rcon_payload : answer (step (submit State.reset 0x112 [0])) = plain .invalidPayloadLength [] := by decide
theorem test_ldst : stepState (step (submit State.reset 0x20 (bytesOfNumber 16 0x00112233445566778899aabbccddeeff)))
    = some (block 0x00112233445566778899aabbccddeeff) := by decide +kernel
theorem test_ldst_length : answer (step (submit loaded 0x20 [0, 1, 2])) = plain .invalidBlockLength [] := by decide
theorem test_rdst : answer (step (submit loaded 0x21 []))
    = plain .ok (bytesOfNumber 16 0x000102030405060708090a0b0c0d0e0f) := by decide +kernel
theorem test_rdst_no_state : answer (step (submit State.reset 0x21 [])) = plain .noState [] := by decide
theorem test_subb : stepState (step (submit loaded 0x30 [])) = some (block 0x637c777bf26b6fc53001672bfed7ab76) := by
  decide +kernel
theorem test_isubb : stepState (step (submit loaded 0x31 [])) = some (block 0x52096ad53036a538bf40a39e81f3d7fb) := by
  decide +kernel
theorem test_shr : stepState (step (submit loaded 0x32 [])) = some (block 0x00050a0f04090e03080d02070c01060b) := by
  decide +kernel
theorem test_ishr : stepState (step (submit loaded 0x33 [])) = some (block 0x000d0a0704010e0b0805020f0c090603) := by
  decide +kernel
theorem test_mixc : stepState (step (submit loaded 0x34 [])) = some (block 0x02070005060304010a0f080d0e0b0c09) := by
  decide +kernel
theorem test_imixc : stepState (step (submit loaded 0x35 [])) = some (block 0x0a0f080d0e0b0c090207000506030401) := by
  decide +kernel
theorem test_addrk : stepState (step (submit { loaded with rk := keyed.rk, rkv := true } 0x36 []))
    = some (block 0) := by decide +kernel
theorem test_addrk_no_key : answer (step (submit State.reset 0x36 [])) = plain .noKey [] := by decide
theorem test_rotw : answer (step (submit State.reset 0x40 [0x09, 0xcf, 0x4f, 0x3c])) = plain .ok [0xcf, 0x4f, 0x3c, 0x09] := by
  decide
theorem test_subw : answer (step (submit State.reset 0x41 [0xcf, 0x4f, 0x3c, 0x09])) = plain .ok [0x8a, 0x84, 0xeb, 0x01] := by
  decide
theorem test_setkey : roundKey 14 (step (submit State.reset 0x42 c3Key)) = some (block 0x24fc79ccbf0979e9371ac23c6d68de36) := by
  decide +kernel
theorem test_setkey_length : answer (step (submit State.reset 0x42 (c3Key.take 31))) = plain .invalidKeyLength [] := by
  decide +kernel
theorem test_rdrk : answer (step (submit keyed 0x243 [])) = plain .ok (bytesOfNumber 16 0xa573c29fa176c498a97fce93a572c09c) := by
  decide +kernel
theorem test_encb : answer (step (submit keyed 0x50 (bytesOfNumber 16 0x00112233445566778899aabbccddeeff)))
    = plain .ok (bytesOfNumber 16 0x8ea2b7ca516745bfeafc49904b496089) := by decide +kernel
theorem test_encb_no_key : answer (step (submit State.reset 0x50 (List.replicate 16 0))) = plain .noKey [] := by decide
theorem test_decb : answer (step (submit keyed 0x51 (bytesOfNumber 16 0x8ea2b7ca516745bfeafc49904b496089)))
    = plain .ok (bytesOfNumber 16 0x00112233445566778899aabbccddeeff) := by decide +kernel
theorem test_decb_length : answer (step (submit keyed 0x51 [0])) = plain .invalidBlockLength [] := by decide
theorem test_pad : answer (step (submit State.reset 0x60 [0x61, 0x62, 0x63]))
    = plain .ok ([0x61, 0x62, 0x63] ++ List.replicate 13 0x0d) := by decide
theorem test_unpad : answer (step (submit State.reset 0x61 [0xaa, 0x02, 0x02])) = plain .ok [0xaa] := by decide
theorem test_unpad_short : answer (step (submit State.reset 0x61 [0x05])) = plain .invalidPadding [] := by decide
theorem test_ecbe : answer (step (submit keyed 0x62 [0x61, 0x62, 0x63]))
    = plain .ok (bytesOfNumber 16 0xd1d00088422280392f0e2568ada86436) := by decide +kernel
theorem test_ecbd : answer (step (submit keyed 0x63 (bytesOfNumber 16 0xd1d00088422280392f0e2568ada86436)))
    = plain .ok [0x61, 0x62, 0x63] := by decide +kernel
theorem test_ecbd_padding : answer (step (submit keyed 0x63 (bytesOfNumber 16 0xf29000b62a499fd0a9f39a6add2e7780)))
    = plain .invalidPadding [] := by decide +kernel

/-- The word withFetchWord stores is the command the next step performs. -/
theorem test_fetch_word : answer (step (State.reset.withFetchWord 32 0x01)) = plain .ok [0] := by decide

/-- Reset clears the registers (R151). -/
theorem test_reset : step { loaded with inbox := [.reset] } = .next State.reset := by rfl

/-! ### Witnesses: for each statement with hypotheses, a state and operands that meet them, clause by clause and at
a boundary of each range -/

/-- A round-key file of zero bytes. -/
def zeroFile : RoundKeys := Vector.replicate 15 .zero

/-- A core of given parameters, with or without a key and a stepping State, that performs a command with payload
`p`. Its round keys are `zeroFile`, its stepping State zero. -/
def sample (c : Config) (k v : Bool) (p : Payload) : State :=
  { cfg := c, rk := if k then some zeroFile else none, rkv := k, st := if v then some .zero else none, stv := v
    input := p, inbox := [], outbox := [] }

theorem fits_of {s : State} (h : exceedsMax s.cfg s.input.length = false) : s.fits := (exceedsMax_eq_false_iff s).mp h

theorem not_fits_of {s : State} (h : exceedsMax s.cfg s.input.length = true) : ¬s.fits := (exceedsMax_eq_true_iff s).mp h

/-- MAX_MSG_BYTES `n`, INSTR true. -/
def maxConfig (n : Nat) : Config := ⟨some n, true⟩

theorem witness_DecodeOfEncodeIsIdentity :
    (Instr.rcon 1).wf smallConfig = true ∧ (Instr.rcon 14).wf smallConfig = true ∧ (Instr.addrk 0).wf smallConfig = true ∧
    (Instr.addrk 14).wf smallConfig = true ∧ (Instr.rdrk 14).wf Config.default = true ∧
    (Instr.encb true).wf Config.default = true ∧ (Instr.decb false).wf smallConfig = true ∧ Instr.gfmul.wf smallConfig = true := by
  decide

theorem witness_EncodeOfDecodeIsIdentity : decode smallConfig 0x00000E36 = .ok (.addrk 14) := by rfl

theorem witness_DecodeCheckIsLegalWord :
    (submit State.reset 0x00000F36 [0]).inbox = [.command ⟨0x00000F36, [0]⟩] ∧ ¬legalWord Config.default 0x00000F36 ∧
    legalWord Config.default 0x00000E36 := by
  refine ⟨rfl, ?_, ?_⟩ <;> unfold legalWord <;> decide

theorem witness_StepRunsDecodedCommand :
    (submit State.reset 0x00000336 []).inbox = [.command ⟨0x00000336, []⟩] ∧
    decode State.reset.cfg 0x00000336 = .ok (.addrk 3) := ⟨rfl, rfl⟩

theorem witness_IdleCoreHoldsState : keyed.inbox = [] := rfl

theorem witness_ResetEventClearsRegisters :
    ({ keyed with inbox := [.reset] } : State).inbox = [.reset] ∧
    ({ keyed with inbox := [.resetDuring ⟨0x42, c3Key⟩] } : State).inbox = [.resetDuring ⟨0x42, c3Key⟩] := ⟨rfl, rfl⟩

theorem witness_FailedCommandChangesNothing :
    (submit loaded 0x20 [0]).inbox = [.command ⟨0x20, [0]⟩] ∧
    answer (step (submit loaded 0x20 [0])) = plain .invalidBlockLength [] := ⟨rfl, by decide⟩

theorem sample_valid_without_key (c : Config) (v : Bool) (p : Payload) : RegistersValid (sample c false v p) := by
  refine ⟨rfl, ?_, ?_⟩
  · cases v <;> rfl
  · intro k h
    cases h

/-- A state with a key that meets the invariant; its expansion is a step of SETKEY away from reset. -/
theorem keyed_valid : RegistersValid keyed := by
  refine ⟨rfl, rfl, ?_⟩
  intro k h
  cases h
  have hk : keyBytesOf (roundKeysOf c3Key) = c3Key := by decide +kernel
  rw [hk]

theorem witness_StatusFollowsPrecedence : RegistersValid (sample (maxConfig 0) false true []) ∧ RegistersValid keyed :=
  ⟨sample_valid_without_key _ _ _, keyed_valid⟩

/-- Every clause of the precedence has a state of its own: illegal, over the bound, wrong length, no key, no state,
bad padding, and success. -/
theorem witness_StatusFollowsPrecedence_clauses :
    (Instr.addrk 15).wf Config.default = false ∧
    ¬(sample (maxConfig 0) false false [0]).fits ∧
    (payloadForm (.addrk 0)).accepts [(0 : Byte)].length = false ∧
    (readsKeys (.addrk 0) = true ∧ (sample Config.default false false []).rkv = false) ∧
    (readsStepState (.addrk 0) = true ∧ keyed.stv = false) ∧
    paddingFails .unpad (sample Config.default false false []) ∧
    ¬paddingFails .pad (sample Config.default false false []) := by
  refine ⟨by decide, not_fits_of (by decide), by decide, ⟨by decide, rfl⟩, ⟨by decide, rfl⟩, .inl ⟨rfl, rfl⟩, ?_⟩
  rintro (⟨h, -⟩ | ⟨h, -⟩) <;> cases h

theorem witness_StepKeepsRegistersValid :
    RegistersValid keyed ∧ BetweenCommands keyed ∧ ∃ t, step (submit keyed 0x42 c3Key) = .next t :=
  ⟨keyed_valid, rfl, _, rfl⟩

theorem witness_StepKeepsResponsesValid :
    (∀ a ∈ State.reset.outbox, ResponseValid a) ∧ ∃ t, step (submit State.reset 0x60 []) = .next t :=
  ⟨fun _ h => (by simp [State.reset] at h), _, rfl⟩

theorem witness_RegistersWrittenOnlyByTheirCommands :
    (∃ t, exec (.encb false) (sample Config.default true true (List.replicate 16 0)) = .next t) ∧
    Instr.encb false ≠ .setkey ∧ Instr.encb false ∉ [.ldst, .subb, .isubb, .shr, .ishr, .mixc, .imixc] ∧
    (∀ idx, Instr.encb false ≠ .addrk idx) ∧ Instr.encb false ≠ .ldst :=
  ⟨⟨_, rfl⟩, by decide, by decide, fun _ => (by simp), by decide⟩

theorem witness_NonWritingCommandsIdempotent :
    Instr.rdst ≠ .setkey ∧ writesStepState .rdst = false ∧ ∃ t, exec .setkey (State.reset.accept c3Key) = .next t :=
  ⟨by decide, rfl, _, rfl⟩

theorem witness_StepStateAndKeysIndependent :
    (readsStepState .setkey = false ∧ writesStepState .setkey = false ∧ ∃ t, exec .setkey (loaded.accept c3Key) = .next t) ∧
    readsKeys .ldst = false ∧ Instr.ldst ≠ .setkey ∧ ∃ t, exec .ldst (keyed.accept (List.replicate 16 0)) = .next t :=
  ⟨⟨rfl, rfl, _, rfl⟩, rfl, by decide, _, rfl⟩

/-- For a command of `n` payload bytes: a payload of `n` bytes exactly at the bound, one of another length, and one
over the bound. -/
theorem witness_payload_clauses (n : Nat) (hn : 0 < n) :
    (sample (maxConfig n) false false (List.replicate n 0)).fits ∧
    (sample (maxConfig n) false false (List.replicate (n - 1) 0)).input.length ≠ n ∧
    (sample (maxConfig n) false false (List.replicate (n - 1) 0)).fits ∧
    ¬(sample (maxConfig (n - 1)) false false (List.replicate n 0)).fits := by
  refine ⟨fits_of ?_, ?_, fits_of ?_, not_fits_of ?_⟩ <;> simp [sample, maxConfig, exceedsMax] <;> omega

theorem witness_GfmulCommand :
    (sample (maxConfig 2) false false [0xff, 0xff]).input = [0xff, 0xff] ∧ (sample (maxConfig 2) false false [0xff, 0xff]).fits ∧
    (sample (maxConfig 2) false false [0xff]).input.length ≠ 2 ∧ ¬(sample (maxConfig 1) false false [0xff, 0xff]).fits :=
  ⟨rfl, fits_of (by decide), by decide, not_fits_of (by decide)⟩

theorem witness_MultiplyByConstantCommands :
    (sample (maxConfig 1) false false [0xff]).input = [0xff] ∧ (sample (maxConfig 1) false false [0xff]).fits ∧
    (sample (maxConfig 1) false false []).input.length ≠ 1 ∧ ¬(sample (maxConfig 0) false false [0xff]).fits :=
  ⟨rfl, fits_of (by decide), by decide, not_fits_of (by decide)⟩

theorem witness_SboxLookupCommands :
    (sample (maxConfig 1) false false [0x53]).input = [0x53] ∧ (sample (maxConfig 1) false false [0x53]).fits ∧
    (sample (maxConfig 2) false false [0, 0]).input.length ≠ 1 ∧ ¬(sample (maxConfig 0) false false [0x53]).fits :=
  ⟨rfl, fits_of (by decide), by decide, not_fits_of (by decide)⟩

theorem witness_SboxIsAffineMapOfInverse : gfMultiply 0x53 0xca = 1 := by decide

theorem witness_RoundConstantsAreDoublings :
    rconRom 14 = 0x4d ∧ rconRom 13 = 0xab := by decide

theorem witness_RconCommand :
    1 ≤ (1 : BitVec 4).toNat ∧ (14 : BitVec 4).toNat ≤ 14 ∧ (sample (maxConfig 0) false false []).input = [] ∧
    (sample (maxConfig 0) false false [0]).input ≠ [] ∧ (0 : BitVec 4).toNat = 0 ∧ (15 : BitVec 4).toNat = 15 := by
  decide

theorem witness_LdstCommand :
    (sample (maxConfig 16) false false (block 1).toList).input = (block 1).toList ∧
    (sample (maxConfig 16) false false (block 1).toList).fits ∧
    ((sample (maxConfig 16) false false (List.replicate 15 0)).input.length ≠ 16 ∧
      (sample (maxConfig 16) false false (List.replicate 15 0)).fits) ∧
    ¬(sample (maxConfig 16) false false (List.replicate 17 0)).fits :=
  ⟨rfl, fits_of (by decide), ⟨by decide, fits_of (by decide)⟩, not_fits_of (by decide)⟩

theorem witness_RdstCommand :
    ((sample (maxConfig 0) false true []).input = [] ∧ (sample (maxConfig 0) false true []).stv = true ∧
      (sample (maxConfig 0) false true []).st = some .zero) ∧
    ((sample (maxConfig 0) false false []).input = [] ∧ (sample (maxConfig 0) false false []).stv = false) ∧
    (sample (maxConfig 0) false true [0]).input ≠ [] := by
  decide

/-- The states of `witness_RdstCommand` meet the hypotheses of the transformation commands too. -/
theorem witness_TransformationCommands :
    ((sample smallConfig true true []).input = [] ∧ (sample smallConfig true true []).stv = true ∧
      (sample smallConfig true true []).st = some .zero) ∧
    ((sample smallConfig true false []).input = [] ∧ (sample smallConfig true false []).stv = false) ∧
    (sample smallConfig true true [0]).input ≠ [] := by
  decide

theorem witness_AddrkCommand :
    ((sample smallConfig true true []).input = [] ∧ (sample smallConfig true true []).rkv = true ∧
      (sample smallConfig true true []).rk = some zeroFile ∧ (sample smallConfig true true []).stv = true ∧
      (sample smallConfig true true []).st = some .zero) ∧
    ((sample smallConfig true false []).rkv = true ∧ (sample smallConfig true false []).rk = some zeroFile ∧
      (sample smallConfig true false []).stv = false) ∧
    (sample smallConfig false true []).rkv = false ∧ (sample smallConfig true true [0]).input ≠ [] := by
  decide

theorem witness_WordCommands :
    (sample (maxConfig 4) false false [1, 2, 3, 4]).input = [1, 2, 3, 4] ∧ (sample (maxConfig 4) false false [1, 2, 3, 4]).fits ∧
    (sample (maxConfig 4) false false [1, 2, 3]).input.length ≠ 4 ∧ ¬(sample (maxConfig 3) false false [1, 2, 3, 4]).fits :=
  ⟨rfl, fits_of (by decide), by decide, not_fits_of (by decide)⟩

/-- The key of ExpandKeyRecurrence, RoundKeysReshapeWords and MiddleSubWordChangesWordTwelve. -/
theorem witness_ExpandKeyRecurrence : c3Key.length = 32 := by decide

theorem witness_RoundKeysReshapeWords : (List.replicate 32 (0 : Byte)).length = 32 := by decide

theorem witness_MiddleSubWordChangesWordTwelve : (List.replicate 32 (0xff : Byte)).length = 32 := by decide

theorem witness_SetkeyCommand :
    ((sample (maxConfig 32) true true c3Key).input.length = 32 ∧ (sample (maxConfig 32) true true c3Key).fits) ∧
    ((sample (maxConfig 32) true true (c3Key.take 31)).input.length ≠ 32 ∧
      (sample (maxConfig 32) true true (c3Key.take 31)).fits) ∧
    ¬(sample (maxConfig 31) true true c3Key).fits :=
  ⟨⟨by decide, fits_of (by decide)⟩, ⟨by decide, fits_of (by decide)⟩, not_fits_of (by decide)⟩

theorem witness_RdrkCommand :
    ((sample (maxConfig 0) true false []).cfg.instr = true ∧ (sample (maxConfig 0) true false []).input = [] ∧
      (sample (maxConfig 0) true false []).rkv = true ∧ (sample (maxConfig 0) true false []).rk = some zeroFile) ∧
    (sample (maxConfig 0) false false []).rkv = false ∧ (sample (maxConfig 0) true false [0]).input ≠ [] ∧
    (sample smallConfig true false []).cfg.instr = false := by
  decide

theorem witness_EncryptionTraceEntries :
    (maxConfig 16).instr = true ∧ (sample (maxConfig 16) true false (block 7).toList).input = (block 7).toList ∧
    (sample (maxConfig 16) true false (block 7).toList).fits ∧
    (sample (maxConfig 16) true false (block 7).toList).rkv = true ∧
    (sample (maxConfig 16) true false (block 7).toList).rk = some zeroFile ∧ (1 : Fin 15).val = 1 ∧ (13 : Fin 15).val = 13 :=
  ⟨rfl, rfl, fits_of (by decide), rfl, rfl, rfl, rfl⟩

theorem witness_DecryptionTraceEntries :
    (maxConfig 16).instr = true ∧ (sample (maxConfig 16) true true (block 9).toList).input = (block 9).toList ∧
    (sample (maxConfig 16) true true (block 9).toList).fits ∧
    (sample (maxConfig 16) true true (block 9).toList).rkv = true ∧
    (sample (maxConfig 16) true true (block 9).toList).rk = some zeroFile :=
  ⟨rfl, rfl, fits_of (by decide), rfl, rfl⟩

/-- The states of ENCB and DECB: a block with a key and without one, with INSTR false and TR = 0, a payload of 15
bytes, one over the bound, and INSTR false for TR = 1. -/
theorem witness_EncbCommand :
    ((false = true → smallConfig.instr = true) ∧ (true = true → (maxConfig 16).instr = true)) ∧
    ((sample (maxConfig 16) true false (block 7).toList).input = (block 7).toList ∧
      (sample (maxConfig 16) true false (block 7).toList).fits ∧
      (sample (maxConfig 16) true false (block 7).toList).rkv = true ∧
      (sample (maxConfig 16) true false (block 7).toList).rk = some zeroFile) ∧
    ((sample (maxConfig 16) false false (block 7).toList).input.length = 16 ∧
      (sample (maxConfig 16) false false (block 7).toList).rkv = false) ∧
    ((sample smallConfig true false (List.replicate 15 0)).input.length ≠ 16 ∧
      (sample smallConfig true false (List.replicate 15 0)).fits) ∧
    ¬(sample smallConfig true false (List.replicate 16 0)).fits ∧ (sample smallConfig true false []).cfg.instr = false :=
  ⟨⟨by decide, by decide⟩, ⟨rfl, fits_of (by decide), rfl, rfl⟩, ⟨by decide, rfl⟩, ⟨by decide, fits_of (by decide)⟩,
    not_fits_of (by decide), rfl⟩

theorem witness_DecbCommand :
    ((sample Config.default true false (block 0).toList).input = (block 0).toList ∧
      (sample Config.default true false (block 0).toList).fits ∧
      (sample Config.default true false (block 0).toList).rkv = true ∧
      (sample Config.default true false (block 0).toList).rk = some zeroFile) ∧
    ((sample Config.default false false (block 0).toList).input.length = 16 ∧
      (sample Config.default false false (block 0).toList).rkv = false) ∧
    ((sample smallConfig false false []).input.length ≠ 16 ∧ (sample smallConfig false false []).fits) ∧
    ¬(sample (maxConfig 15) true false (block 0).toList).fits ∧ (sample smallConfig true false []).cfg.instr = false :=
  ⟨⟨rfl, fits_of (by decide), rfl, rfl⟩, ⟨by decide, rfl⟩, ⟨by decide, fits_of (by decide)⟩, not_fits_of (by decide), rfl⟩

theorem witness_TraceChangesNothingElse : keyed.cfg.instr = true := rfl

theorem witness_SteppingMatchesOrchestrator :
    (sample (maxConfig 16) true false []).rkv = true ∧ (sample (maxConfig 16) true false []).rk = some zeroFile ∧
    ∀ m, (sample (maxConfig 16) true false []).cfg.maxMsgBytes = some m → 16 ≤ m :=
  ⟨rfl, rfl, fun m h => by cases h; decide⟩

theorem witness_UnpadAcceptsExactlyPaddings :
    unpadBytes [0x01] = some [] ∧ unpadBytes (List.replicate 16 0x10) = some [] ∧ unpadBytes [0x00] = none ∧
    unpadBytes (List.replicate 17 0x11) = none := by
  decide

theorem witness_StreamRoundTrip :
    (sample (maxConfig 19) true false []).rkv = true ∧ (sample (maxConfig 19) true false []).rk = some zeroFile ∧
    ∀ x, (sample (maxConfig 19) true false []).cfg.maxMsgBytes = some x → ([0x61, 0x62, 0x63] : Payload).length + 16 ≤ x :=
  ⟨rfl, rfl, fun x h => by cases h; decide⟩

theorem witness_PadUnpadCommands :
    (sample (maxConfig 1) false false [0x01]).fits ∧ unpadBytes [0x01] = some [] ∧
    ((sample (maxConfig 0) false false []).fits ∧ unpadBytes [] = none) ∧ ¬(sample (maxConfig 0) false false [0x01]).fits :=
  ⟨fits_of (by decide), by decide, ⟨fits_of (by decide), rfl⟩, not_fits_of (by decide)⟩

theorem witness_EcbeCommand :
    ((sample (maxConfig 0) true false []).fits ∧ (sample (maxConfig 0) true false []).rkv = true ∧
      (sample (maxConfig 0) true false []).rk = some zeroFile) ∧
    ((sample (maxConfig 0) false false []).fits ∧ (sample (maxConfig 0) false false []).rkv = false) ∧
    ¬(sample (maxConfig 0) true false [0]).fits :=
  ⟨⟨fits_of (by decide), rfl, rfl⟩, ⟨fits_of (by decide), rfl⟩, not_fits_of (by decide)⟩

/-- A ciphertext of `keyed` that unpads, from 95_test_vectors.md 2.8. -/
def goodCipher : Payload := bytesOfNumber 16 0xd1d00088422280392f0e2568ada86436

/-- A ciphertext of `keyed` that does not unpad, from 95_test_vectors.md 2.8. -/
def badCipher : Payload := bytesOfNumber 16 0xf29000b62a499fd0a9f39a6add2e7780

theorem witness_EcbdCommand_good :
    (keyed.accept goodCipher).fits ∧ (keyed.accept goodCipher).input.length ≠ 0 ∧
    (keyed.accept goodCipher).input.length % 16 = 0 ∧ (keyed.accept goodCipher).rkv = true ∧
    (keyed.accept goodCipher).rk = some (roundKeysOf c3Key) ∧
    unpadBytes (decryptBlocks (keyed.accept goodCipher).input (roundKeysOf c3Key)) = some [0x61, 0x62, 0x63] :=
  ⟨fits_of (by decide), by decide, by decide, rfl, rfl, by decide +kernel⟩

theorem witness_EcbdCommand_bad :
    (keyed.accept badCipher).fits ∧ (keyed.accept badCipher).input.length ≠ 0 ∧
    (keyed.accept badCipher).input.length % 16 = 0 ∧ (keyed.accept badCipher).rkv = true ∧
    (keyed.accept badCipher).rk = some (roundKeysOf c3Key) ∧
    unpadBytes (decryptBlocks (keyed.accept badCipher).input (roundKeysOf c3Key)) = none :=
  ⟨fits_of (by decide), by decide, by decide, rfl, rfl, by decide +kernel⟩

theorem witness_EcbdCommand_stops :
    ((sample (maxConfig 16) false false (List.replicate 16 0)).fits ∧
      (sample (maxConfig 16) false false (List.replicate 16 0)).rkv = false) ∧
    ((sample (maxConfig 15) true false []).fits ∧ (sample (maxConfig 15) true false []).input.length = 0) ∧
    ((sample (maxConfig 17) true false (List.replicate 17 0)).fits ∧
      (sample (maxConfig 17) true false (List.replicate 17 0)).input.length % 16 ≠ 0) ∧
    ¬(sample (maxConfig 15) true false (List.replicate 16 0)).fits :=
  ⟨⟨fits_of (by decide), rfl⟩, ⟨fits_of (by decide), rfl⟩, ⟨fits_of (by decide), by decide⟩, not_fits_of (by decide)⟩

end Sys2Proof.Tests
end

section
/-! The registers after reset and the maps between a block and a State (10_state.md R19, R20, R29). -/

namespace Sys2Proof.Machine

/-- Settles O9: R29's values are the ones `State.reset` is built from. -/
theorem resetStateRegisters : Obligations.ResetStateRegisters :=
  ⟨rfl, rfl, rfl, rfl⟩

/-- The cell in row `r` and column `c` is byte `4c + r` of the block (R19). -/
@[simp] theorem cell_blockToState (b : Block) (r c : Fin 4) :
    (blockToState b).cell r c = b[4 * c.val + r.val] :=
  CipherState.cell_ofCells _ r c

/-- Byte `i` of the block is the cell in row `i mod 4` and column `i / 4` (R20). -/
@[simp] theorem getElem_stateToBlock (s : CipherState) {i : Nat} (hi : i < 16) :
    (stateToBlock s)[i] = s.cell ⟨i % 4, by omega⟩ ⟨i / 4, by omega⟩ :=
  Vector.getElem_ofFn hi

/-- Column-major numbering is `Nat.div_add_mod`: row `i mod 4` of column `i / 4` is byte `i`. -/
theorem cell_blockToState_mod_div (b : Block) {i : Nat} (hi : i < 16) :
    (blockToState b).cell ⟨i % 4, by omega⟩ ⟨i / 4, by omega⟩ = b[i] := by
  simp only [cell_blockToState, Nat.div_add_mod]

@[simp] theorem stateToBlock_blockToState (b : Block) : stateToBlock (blockToState b) = b := by
  apply Vector.ext
  intro i hi
  rw [getElem_stateToBlock, cell_blockToState_mod_div]

@[simp] theorem blockToState_stateToBlock (s : CipherState) : blockToState (stateToBlock s) = s := by
  apply CipherState.ext_cells
  intro r c
  have hrow : (4 * c.val + r.val) % 4 = r.val := by omega
  have hcol : (4 * c.val + r.val) / 4 = c.val := by omega
  simp only [cell_blockToState, getElem_stateToBlock, hrow, hcol]

/-- Settles O32: both maps go through byte `i` ↔ cell `(i mod 4, i / 4)`, so each undoes the other. -/
theorem blockStateMapsAreInverse : Obligations.BlockStateMapsAreInverse :=
  ⟨fun b i => cell_blockToState_mod_div b i.isLt, fun s i => getElem_stateToBlock s i.isLt,
    stateToBlock_blockToState, blockToState_stateToBlock⟩

end Sys2Proof.Machine
end

section
/-! The decode check (30_encoding.md R46, R50, R53): which words decode, and what a step makes of the others. -/

namespace Sys2Proof

open Sys2Proof.Machine Sys2Proof.Claims

/-! ### The fields of a word as numbers (R46) -/

theorem wordFields_opc_toNat (w : BitVec 32) : (wordFields w).opc.toNat = w.toNat % 256 := by
  simp [wordFields]

theorem wordFields_idx_toNat (w : BitVec 32) : (wordFields w).idx.toNat = w.toNat / 256 % 16 := by
  simp [wordFields, Nat.shiftRight_eq_div_pow]

theorem wordFields_tr_toNat (w : BitVec 32) : (wordFields w).tr.toNat = w.toNat / 4096 % 2 := by
  simp [wordFields, BitVec.getLsbD, Nat.toNat_testBit]

theorem wordFields_rsv_toNat (w : BitVec 32) : (wordFields w).rsv.toNat = w.toNat / 8192 := by
  have hw : w.toNat / 8192 < 2 ^ 19 := by omega
  simpa [wordFields, Nat.shiftRight_eq_div_pow] using hw

theorem wordFields_rsv_eq_zero_iff (w : BitVec 32) : (wordFields w).rsv = 0 ↔ w.toNat / 8192 = 0 := by
  rw [← wordFields_rsv_toNat, BitVec.toNat_eq]
  rfl

/-! ### Assigned operation codes (R51, R53) -/

theorem Instr.opcode_mem_assignedOpcodes (i : Instr) : i.opcode.toNat ∈ assignedOpcodes := by
  cases i <;> simp [Instr.opcode, assignedOpcodes]

theorem commandForm_isSome_of_mem_assignedOpcodes :
    ∀ opc : BitVec 8, opc.toNat ∈ assignedOpcodes → (commandForm opc).isSome := by
  decide

theorem commandForm_eq_some_iff (opc : BitVec 8) (form : CommandForm) :
    commandForm opc = some form ↔ ∃ i : Instr, i.opcode = opc ∧ form = formOf i := by
  constructor
  · exact commandForm_eq_some
  · rintro ⟨i, rfl, rfl⟩
    exact commandForm_opcode i

theorem exists_opcode_of_mem_assignedOpcodes {opc : BitVec 8} (h : opc.toNat ∈ assignedOpcodes) :
    ∃ i : Instr, i.opcode = opc := by
  obtain ⟨form, hform⟩ := Option.isSome_iff_exists.mp (commandForm_isSome_of_mem_assignedOpcodes opc h)
  obtain ⟨i, hi, -⟩ := commandForm_eq_some hform
  exact ⟨i, hi⟩

/-! ### What each form accepts in IDX and TR (R48, R49) -/

theorem fillForm_plain_accepts_iff (c : Config) (idx : BitVec 4) (tr : Bool) (i : Instr) :
    (∃ j, fillForm c idx tr (.plain i) = .ok j) ↔ idx = 0 ∧ tr = false ∧ i.wf c = true := by
  by_cases hidx : idx = 0#4 <;> cases tr <;> simp [fillForm, checkWellFormed_eq_ok_iff, hidx]

theorem fillForm_indexed_accepts_iff (c : Config) (idx : BitVec 4) (tr : Bool) (mk : BitVec 4 → Instr) :
    (∃ j, fillForm c idx tr (.indexed mk) = .ok j) ↔ tr = false ∧ (mk idx).wf c = true := by
  cases tr <;> simp [fillForm, checkWellFormed_eq_ok_iff]

theorem fillForm_traced_accepts_iff (c : Config) (idx : BitVec 4) (tr : Bool) (mk : Bool → Instr) :
    (∃ j, fillForm c idx tr (.traced mk) = .ok j) ↔ idx = 0 ∧ (mk tr).wf c = true := by
  by_cases hidx : idx = 0#4 <;> simp [fillForm, checkWellFormed_eq_ok_iff, hidx]

/-- The clauses of `legalWord` on IDX, TR and `INSTR`, for fields given as numbers. -/
def OperandFieldsLegal (c : Config) (opc idx tr : Nat) : Prop :=
  (if opc = 0x12 then 1 ≤ idx ∧ idx ≤ 14
    else if opc = 0x36 ∨ opc = 0x43 then idx ≤ 14
    else idx = 0) ∧
  (tr = 0 ∨ ((opc = 0x50 ∨ opc = 0x51) ∧ c.instr = true)) ∧
  (opc ≠ 0x43 ∨ c.instr = true)

theorem legalWord_iff_fields (c : Config) (w : BitVec 32) :
    legalWord c w ↔ (wordFields w).rsv = 0 ∧ (wordFields w).opc.toNat ∈ assignedOpcodes ∧
      OperandFieldsLegal c (wordFields w).opc.toNat (wordFields w).idx.toNat (wordFields w).tr.toNat := by
  rw [wordFields_rsv_eq_zero_iff, wordFields_opc_toNat, wordFields_idx_toNat, wordFields_tr_toNat]
  exact and_left_comm

/-- The form of an assigned operation code accepts exactly the operand fields R50 calls legal for it. -/
theorem fillForm_formOf_accepts_iff (c : Config) (idx : BitVec 4) (tr : Bool) (i : Instr) :
    (∃ j, fillForm c idx tr (formOf i) = .ok j) ↔
      OperandFieldsLegal c i.opcode.toNat idx.toNat tr.toNat := by
  have hidx : idx = 0#4 ↔ idx.toNat = 0 := BitVec.toNat_eq
  cases i with
  | rcon _ | addrk _ =>
    simp [formOf, fillForm_indexed_accepts_iff, Instr.wf, rconIndexLegal, keyIndexLegal, OperandFieldsLegal,
      Instr.opcode, and_comm]
  | rdrk _ =>
    simp [formOf, fillForm_indexed_accepts_iff, Instr.wf, keyIndexLegal, OperandFieldsLegal, Instr.opcode,
      and_left_comm]
  | encb _ | decb _ =>
    simp [formOf, fillForm_traced_accepts_iff, Instr.wf, traceLegal, OperandFieldsLegal, Instr.opcode, hidx]
  | _ => simp [formOf, fillForm_plain_accepts_iff, Instr.wf, OperandFieldsLegal, Instr.opcode, hidx]

/-! ### The decoder and the step (R50) -/

/-- A word decodes exactly when RSV is 0, OPC is a command's, and that command's form takes IDX and TR. -/
theorem decode_eq_ok_iff (c : Config) (w : BitVec 32) (j : Instr) :
    decode c w = .ok j ↔ (wordFields w).rsv = 0 ∧ ∃ i : Instr, i.opcode = (wordFields w).opc ∧
      fillForm c (wordFields w).idx (wordFields w).tr (formOf i) = .ok j := by
  have hform : decode c w = .ok j ↔ (wordFields w).rsv = 0 ∧ ∃ form, commandForm (wordFields w).opc = some form ∧
      fillForm c (wordFields w).idx (wordFields w).tr form = .ok j := by
    unfold decode
    by_cases hrsv : (wordFields w).rsv = 0#19 <;> cases hopc : commandForm (wordFields w).opc <;>
      simp [hrsv, hopc]
  simp only [hform, commandForm_eq_some_iff, and_assoc, ↓existsAndEq, true_and]

theorem decode_accepts_iff_legalWord (c : Config) (w : BitVec 32) :
    (∃ j, decode c w = .ok j) ↔ legalWord c w := by
  rw [legalWord_iff_fields]
  constructor
  · rintro ⟨j, hj⟩
    obtain ⟨hrsv, i, hi, hfill⟩ := (decode_eq_ok_iff c w j).mp hj
    rw [← hi]
    exact ⟨hrsv, i.opcode_mem_assignedOpcodes, (fillForm_formOf_accepts_iff ..).mp ⟨j, hfill⟩⟩
  · rintro ⟨hrsv, hopc, hlegal⟩
    obtain ⟨i, hi⟩ := exists_opcode_of_mem_assignedOpcodes hopc
    rw [← hi] at hlegal
    obtain ⟨j, hfill⟩ := (fillForm_formOf_accepts_iff ..).mpr hlegal
    exact ⟨j, (decode_eq_ok_iff c w j).mpr ⟨hrsv, i, hi, hfill⟩⟩

/-- A command whose word does not decode raises ILLEGAL_COMMAND and drops its payload. -/
theorem step_of_decode_error {s : State} {r : Request} {rest : List HostEvent} {e : DecodeError}
    (hin : s.inbox = .command r :: rest) (hdec : decode s.cfg r.word = .error e) :
    step s = .next (({ s with inbox := rest } : State).raise .illegalCommand) := by
  have hnext : s.nextEvent = some (.command r, { s with inbox := rest }) :=
    (nextEvent_eq_some_iff ..).mpr ⟨rest, hin, rfl⟩
  simp only [step, hnext, hdec]
  rfl

/-- Settles O3: the operand fields a form accepts are the ones R50 calls legal, so an illegal word has no decoding
and the step takes its error branch. -/
theorem decodeCheckIsLegalWord : Obligations.DecodeCheckIsLegalWord := by
  refine ⟨decode_accepts_iff_legalWord, fun s r rest hin hillegal => ?_⟩
  cases hdec : decode s.cfg r.word with
  | ok i => exact absurd ((decode_accepts_iff_legalWord _ _).mp ⟨i, hdec⟩) hillegal
  | error e => exact step_of_decode_error hin hdec

end Sys2Proof
end

section
/-! The multiplier (41_gf_arith.md R60, R62 to R71): doubling as a number, the laws of gfMultiply, and the commands
that answer a product. -/

namespace Sys2Proof.Machine

/-! ### Doubling (R60) -/

/-- The left shift of R60 by one place, with the low 8 bits kept, is the shift of bit vectors. -/
theorem ofNat_shiftLeft_one_and_mask (b : Byte) : BitVec.ofNat 8 ((b.toNat <<< 1) &&& 0xFF) = b <<< 1 := by
  apply BitVec.eq_of_toNat_eq
  simp [Nat.and_two_pow_sub_one_eq_mod _ 8]

/-- The top bit of a byte is 1 exactly when its double overflows. -/
theorem getLsbD_seven_eq (b : Byte) : b.getLsbD 7 = decide (128 ≤ b.toNat) :=
  BitVec.msb_eq_decide b

/-- Reducing an overflowing double by 0x11B drops its bit 8 and adds 0x1B to the rest. -/
theorem xor_polynomial_eq_mod_xor {n : Nat} (hlow : 256 ≤ n) (hhigh : n < 512) : n ^^^ 0x11B = n % 256 ^^^ 0x1B := by
  have hdiv : (n ^^^ 0x11B) / 2 ^ 8 = 0 := by
    have hn : n / 2 ^ 8 = 1 := by omega
    rw [Nat.xor_div_two_pow, hn]
    rfl
  have hmod : (n ^^^ 0x11B) % 2 ^ 8 = n % 256 ^^^ 0x1B := Nat.xor_mod_two_pow
  omega

/-- Settles O21: the top bit says whether the double overflows, and then the shift's lost bit is the top bit of the
polynomial. -/
theorem doublingReducesByPolynomial : Obligations.DoublingReducesByPolynomial := by
  intro b
  refine ⟨by rw [ofNat_shiftLeft_one_and_mask, times2], ?_⟩
  have hshift : b.toNat <<< 1 = 2 * b.toNat := by omega
  rw [times2, getLsbD_seven_eq, BitVec.toNat_xor, BitVec.toNat_shiftLeft, hshift]
  by_cases h : b.toNat < 128
  · have htop : ¬128 ≤ b.toNat := by omega
    have hfits : 2 * b.toNat < 256 := by omega
    simp [h, htop, hfits]
  · have htop : 128 ≤ b.toNat := by omega
    simp [h, htop, xor_polynomial_eq_mod_xor (n := 2 * b.toNat) (by omega) (by omega)]

/-! ### The laws of gfMultiply (R62)

The loop builds its product from its first factor by doubling and xor alone. So a function that keeps both may be
applied before the loop or after it; every law that speaks of the second factor follows from this one fact. -/

/-- A function that distributes over xor and commutes with doubling passes through the loop. -/
theorem map_gfLoop {f : Byte → Byte} (hxor : ∀ x y, f (x ^^^ y) = f x ^^^ f y)
    (hdouble : ∀ x, f (times2 x) = times2 (f x)) (n : Nat) (a b p : Byte) :
    f (gfLoop n a b p) = gfLoop n (f a) b (f p) := by
  induction n generalizing a b p with
  | zero => rfl
  | succ n ih => rw [gfLoop, gfLoop, ih, hdouble, apply_ite f, hxor]

/-- A second factor of 0 adds nothing to the accumulator. -/
theorem gfLoop_zero_right (n : Nat) (a p : Byte) : gfLoop n a 0 p = p := by
  induction n generalizing a with
  | zero => rfl
  | succ n ih => exact ih (times2 a)

@[simp] theorem gfMultiply_zero_right (a : Byte) : gfMultiply a 0 = 0 := gfLoop_zero_right 8 a 0

@[simp] theorem gfMultiply_one_right (a : Byte) : gfMultiply a 1 = a := by
  calc gfMultiply a 1 = gfLoop 7 (times2 a) 0 (0 ^^^ a) := rfl
    _ = 0 ^^^ a := gfLoop_zero_right 7 (times2 a) (0 ^^^ a)
    _ = a := BitVec.zero_xor

/-- Doubling 1 up to seven times gives the eight single bits, so the loop reassembles the second factor. -/
@[simp] theorem gfMultiply_one_left : ∀ b : Byte, gfMultiply 1 b = b := by decide

theorem gfMultiply_xor_left (a a' b : Byte) : gfMultiply (a ^^^ a') b = gfMultiply a b ^^^ gfMultiply a' b :=
  gfLoop_xor_left 8 a a' b

theorem gfMultiply_times2_left (a b : Byte) : gfMultiply (times2 a) b = times2 (gfMultiply a b) := by
  rw [gfMultiply, gfMultiply, map_gfLoop times2_xor (fun _ => rfl), times2_zero]

/-- Multiplying by `b` on the right passes through the loop that builds `a` from 1, which turns it into the loop
that multiplies `b` by `a`. -/
theorem gfMultiply_comm (a b : Byte) : gfMultiply a b = gfMultiply b a := by
  have hzero : gfMultiply 0 b = 0 := by simpa using gfMultiply_xor_left 0 0 b
  calc gfMultiply a b = gfMultiply (gfMultiply 1 a) b := by rw [gfMultiply_one_left]
    _ = gfLoop 8 (gfMultiply 1 b) a (gfMultiply 0 b) :=
        map_gfLoop (f := (gfMultiply · b)) (gfMultiply_xor_left · · b) (gfMultiply_times2_left · b) 8 1 a 0
    _ = gfMultiply b a := by rw [gfMultiply_one_left, hzero, gfMultiply]

@[simp] theorem gfMultiply_zero_left (a : Byte) : gfMultiply 0 a = 0 := by
  rw [gfMultiply_comm, gfMultiply_zero_right]

@[simp] theorem gfMultiply_xor_right (a b c : Byte) : gfMultiply a (b ^^^ c) = gfMultiply a b ^^^ gfMultiply a c := by
  rw [gfMultiply_comm, gfMultiply_xor_left, gfMultiply_comm b, gfMultiply_comm c]

@[simp] theorem gfMultiply_times2_right (a b : Byte) : gfMultiply a (times2 b) = times2 (gfMultiply a b) := by
  rw [gfMultiply_comm, gfMultiply_times2_left, gfMultiply_comm]

/-- A function that multiplication passes through is the product by its value at 1. -/
theorem eq_gfMultiply_of_commutes {f : Byte → Byte} {k : Byte} (hk : f 1 = k)
    (hmul : ∀ b x, gfMultiply b (f x) = f (gfMultiply b x)) (b : Byte) : f b = gfMultiply b k := by
  rw [← hk, hmul, gfMultiply_one_right]

theorem gfMultiply_two_right (a : Byte) : gfMultiply a 2 = times2 a :=
  (eq_gfMultiply_of_commutes (by decide) gfMultiply_times2_right a).symm

/-- Settles O23: linearity in the first factor is the loop's; commutativity carries it to the second. -/
theorem gfMultiplyLaws : Obligations.GfMultiplyLaws := fun a b c =>
  ⟨gfMultiply_zero_right a, gfMultiply_zero_left a, gfMultiply_one_right a, gfMultiply_one_left a,
    gfMultiply_comm a b, gfMultiply_xor_right a b c, gfMultiply_two_right a⟩

/-! ### The constant multipliers (R63, R64)

Each is a composition of doubling and xor, which multiplication passes through, so `eq_gfMultiply_of_commutes`
applies to each. -/

theorem times3_eq_gfMultiply (b : Byte) : times3 b = gfMultiply b 3 :=
  eq_gfMultiply_of_commutes (by decide) (by simp [times3]) b

theorem times9_eq_gfMultiply (b : Byte) : times9 b = gfMultiply b 9 :=
  eq_gfMultiply_of_commutes (by decide) (by simp [times9]) b

theorem times11_eq_gfMultiply (b : Byte) : times11 b = gfMultiply b 11 :=
  eq_gfMultiply_of_commutes (by decide) (by simp [times11]) b

theorem times13_eq_gfMultiply (b : Byte) : times13 b = gfMultiply b 13 :=
  eq_gfMultiply_of_commutes (by decide) (by simp [times13]) b

theorem times14_eq_gfMultiply (b : Byte) : times14 b = gfMultiply b 14 :=
  eq_gfMultiply_of_commutes (by decide) (by simp [times14]) b

/-- Settles O24: the compositions are the definitions, and each equals the product by its value at 1. -/
theorem constantMultipliersAreProducts : Obligations.ConstantMultipliersAreProducts := fun b =>
  ⟨rfl, times3_eq_gfMultiply b, times9_eq_gfMultiply b, times11_eq_gfMultiply b, times13_eq_gfMultiply b,
    times14_eq_gfMultiply b, rfl, rfl, rfl, rfl⟩

/-! ### The commands (R65 to R71) -/

/-- A payload of `n` bytes within the bound passes the checks of a legal command that takes `n` bytes. -/
theorem takePayload_exactly_ok {i : Instr} {s : State} {n : Nat} (hwf : i.wf s.cfg = true)
    (hform : payloadForm i = .exactly n) (hlen : s.input.length = n) (hfits : s.fits) :
    takePayload i s = .ok s.input :=
  takePayload_ok hwf hfits (by simp [hform, PayloadForm.accepts, hlen])

/-- A command whose wrong length raises INVALID_PAYLOAD_LENGTH raises the same status over the bound. -/
theorem takePayload_exactly_error {i : Instr} {s : State} {n : Nat} (hwf : i.wf s.cfg = true)
    (hform : payloadForm i = .exactly n) (hstatus : wrongLengthStatus i = .invalidPayloadLength)
    (h : s.input.length ≠ n ∨ ¬s.fits) : takePayload i s = .error .invalidPayloadLength := by
  rw [takePayload_eq_error_iff, hstatus]
  by_cases hfits : s.fits
  · have hlen : s.input.length ≠ n := h.resolve_right (not_not_intro hfits)
    exact .inr (.inr ⟨hwf, hfits, by simp [hform, PayloadForm.accepts, hlen], rfl⟩)
  · exact .inr (.inl ⟨hwf, hfits, rfl⟩)

/-- Settles O25: GFMUL is `finish` of its payload check, which gives both bytes or INVALID_PAYLOAD_LENGTH. -/
theorem gfmulCommand : Obligations.GfmulCommand := by
  refine ⟨fun _ => rfl, fun s => ⟨fun a b hin hfits => ?_, fun h => ?_⟩⟩
  · have hp : takePayload .gfmul s = .ok s.input := takePayload_exactly_ok rfl rfl (by simp [hin]) hfits
    simp [exec, execGfmul, hp, hin, payloadByte]
  · have hp : takePayload .gfmul s = .error .invalidPayloadLength := takePayload_exactly_error rfl rfl rfl h
    simp [exec, execGfmul, hp]

/-- The end of a one-byte command whose wrong length raises INVALID_PAYLOAD_LENGTH: the function of its byte, or that
status and nothing else. -/
theorem finish_byteCommand {i : Instr} {s : State} (f : Byte → Byte) (hwf : i.wf s.cfg = true)
    (hform : payloadForm i = .exactly 1) (hstatus : wrongLengthStatus i = .invalidPayloadLength) :
    (∀ b : Byte, s.input = [b] → s.fits →
      s.finish (s.byteCommand i f) = .next (s.respond ⟨.ok, [f b], []⟩)) ∧
    (s.input.length ≠ 1 ∨ ¬s.fits →
      s.finish (s.byteCommand i f) = .next (s.raise .invalidPayloadLength)) := by
  rw [byteCommand_eq]
  refine ⟨fun b hin hfits => ?_, fun h => ?_⟩
  · rw [takePayload_exactly_ok hwf hform (by simp [hin]) hfits, hin]
    rfl
  · rw [takePayload_exactly_error hwf hform hstatus h]
    rfl

/-- Settles O26: each of the six is `finish` of a one-byte command with its constant multiplier. -/
theorem multiplyByConstantCommands : Obligations.MultiplyByConstantCommands := by
  simp only [Obligations.MultiplyByConstantCommands, List.forall_mem_cons]
  exact ⟨⟨fun _ => rfl, fun _ => finish_byteCommand times2 rfl rfl rfl⟩,
    ⟨fun _ => rfl, fun _ => finish_byteCommand times3 rfl rfl rfl⟩,
    ⟨fun _ => rfl, fun _ => finish_byteCommand times9 rfl rfl rfl⟩,
    ⟨fun _ => rfl, fun _ => finish_byteCommand times11 rfl rfl rfl⟩,
    ⟨fun _ => rfl, fun _ => finish_byteCommand times13 rfl rfl rfl⟩,
    ⟨fun _ => rfl, fun _ => finish_byteCommand times14 rfl rfl rfl⟩,
    List.forall_mem_nil _⟩

end Sys2Proof.Machine
end

section
/-! The constants (42_constants.md R74 to R80): the S-box and its inverse, the round constants, and the commands that
read them. -/

namespace Sys2Proof.Machine

/-! ### The S-box (R74) -/

/-- The tables of R72 and R73, compared at every byte: each undoes the other. -/
@[simp] theorem invSboxRom_sboxRom : ∀ x : Byte, invSboxRom (sboxRom x) = x := by decide

@[simp] theorem sboxRom_invSboxRom : ∀ x : Byte, sboxRom (invSboxRom x) = x := by decide

theorem sboxRom_ne_self : ∀ x : Byte, sboxRom x ≠ x := by decide

theorem sboxRom_ne_complement : ∀ x : Byte, sboxRom x ≠ x ^^^ 0xFF := by decide

theorem sboxRom_bijective : Function.Bijective sboxRom :=
  Function.bijective_iff_has_inverse.mpr ⟨invSboxRom, invSboxRom_sboxRom, sboxRom_invSboxRom⟩

/-- Settles O27: the two tables undo each other, which makes the S-box a bijection. -/
theorem sboxIsPermutationWithInverse : Obligations.SboxIsPermutationWithInverse :=
  ⟨fun x => ⟨invSboxRom_sboxRom x, sboxRom_invSboxRom x, sboxRom_ne_self x, sboxRom_ne_complement x⟩,
    sboxRom_bijective⟩

/-! ### The round constants (R75, R76) -/

theorem rconRom_succ {i : Nat} (hi : 1 ≤ i) (hi' : i ≤ 13) : rconRom (i + 1) = times2 (rconRom i) := by
  interval_cases i <;> rfl

theorem times2_ne_zero : ∀ {b : Byte}, b ≠ 0 → times2 b ≠ 0 := by decide

/-- The first constant is 1, and doubling takes no byte but 0 to 0. -/
theorem rconRom_ne_zero {i : Nat} (hi : 1 ≤ i) (hi' : i ≤ 14) : rconRom i ≠ 0 := by
  induction i, hi using Nat.le_induction with
  | base => decide
  | succ i hi ih =>
    rw [rconRom_succ hi (by omega)]
    exact times2_ne_zero (ih (by omega))

/-- Settles O29: the table's entries follow by doubling from 0x01, so none of them is zero. -/
theorem roundConstantsAreDoublings : Obligations.RoundConstantsAreDoublings :=
  ⟨rfl, fun _ => rconRom_succ, fun _ => rconRom_ne_zero⟩

/-! ### SBOX and ISBOX (R78, R79) -/

/-- Settles O30: each of the two is `finish` of a one-byte command with its table. -/
theorem sboxLookupCommands : Obligations.SboxLookupCommands := by
  simp only [Obligations.SboxLookupCommands, List.forall_mem_cons]
  exact ⟨⟨fun _ => rfl, fun _ => finish_byteCommand sboxRom rfl rfl rfl⟩,
    ⟨fun _ => rfl, fun _ => finish_byteCommand invSboxRom rfl rfl rfl⟩,
    List.forall_mem_nil _⟩

/-! ### RCON (R80) -/

theorem wf_rcon_iff (c : Config) (idx : BitVec 4) :
    (Instr.rcon idx).wf c = true ↔ 1 ≤ idx.toNat ∧ idx.toNat ≤ 14 := by
  simp [Instr.wf, rconIndexLegal]

/-- The encoding of a command decodes to it when the form of its operation code accepts its own IDX and TR. -/
theorem decode_encode_of_fillForm {c : Config} {i : Instr}
    (h : fillForm c i.index i.traceBit (formOf i) = .ok i) : decode c (encode i) = .ok i := by
  rw [decode_eq_ok_iff, wordFields_encode]
  exact ⟨rfl, i, rfl, h⟩

theorem decode_encode_rcon {c : Config} {idx : BitVec 4} (hwf : (Instr.rcon idx).wf c = true) :
    decode c (encode (.rcon idx)) = .ok (.rcon idx) :=
  decode_encode_of_fillForm ((checkWellFormed_eq_ok_iff ..).mpr ⟨hwf, rfl⟩)

/-- The TR that `encode` puts into the word is 0. -/
theorem encode_rcon (idx : BitVec 4) : encode (.rcon idx) = 0x00000012 ||| (idx.setWidth 32 <<< 8) :=
  BitVec.or_zero

/-- No bound forbids the empty payload, so a legal command that takes none passes the checks with it. -/
theorem takePayload_nil_ok {i : Instr} {s : State} (hwf : i.wf s.cfg = true) (hform : payloadForm i = .exactly 0)
    (hin : s.input = []) : takePayload i s = .ok s.input :=
  takePayload_exactly_ok hwf hform (by simp [hin]) (fun _ _ => by simp [hin])

/-- RCON answers the constant at IDX, or the status its payload check gives, and changes no register. -/
theorem exec_rcon_eq (idx : BitVec 4) (s : State) :
    exec (.rcon idx) s = s.finish ((takePayload (.rcon idx) s).map fun _ => ⟨s, [rconRom idx.toNat], []⟩) := by
  simp only [exec, execRcon]
  cases takePayload (.rcon idx) s <;> rfl

/-- Settles O31: the word is the encoding of RCON #IDX, and each clause is one outcome of the payload check. -/
theorem rconCommand : Obligations.RconCommand := by
  refine ⟨fun c idx hlow hhigh => ?_, fun s idx => ?_⟩
  · rw [← encode_rcon]
    exact decode_encode_rcon ((wf_rcon_iff ..).mpr ⟨hlow, hhigh⟩)
  have hwf := wf_rcon_iff s.cfg idx
  rw [exec_rcon_eq]
  refine ⟨fun hlow hhigh hin => ?_, fun hlow hhigh hin => ?_, fun hidx => ?_⟩
  · rw [takePayload_nil_ok (hwf.mpr ⟨hlow, hhigh⟩) rfl hin]
    rfl
  · have hlen : s.input.length ≠ 0 := by simpa using hin
    rw [takePayload_exactly_error (hwf.mpr ⟨hlow, hhigh⟩) rfl rfl (.inl hlen)]
    rfl
  · have hillegal : (Instr.rcon idx).wf s.cfg = false := by
      rw [← Bool.not_eq_true, hwf]
      omega
    rw [(takePayload_eq_error_iff ..).mpr (.inl ⟨hillegal, rfl⟩)]
    rfl

end Sys2Proof.Machine
end

section
/-! The round transformations (43_round_transforms.md R81 to R88): their cells, MixColumns as a product of polynomials,
and the inverse laws. -/

namespace Sys2Proof.Machine

/-! ### Cell by cell (R81 to R84, R87) -/

@[simp] theorem CipherState.cell_ofColumns (f : Fin 4 → Word) (r c : Fin 4) :
    (CipherState.ofColumns f).cell r c = wordByte (f c) r := by
  rw [CipherState.cell, CipherState.column_ofColumns]

@[simp] theorem cell_subBytes (s : CipherState) (r c : Fin 4) : (subBytes s).cell r c = sboxRom (s.cell r c) :=
  CipherState.cell_mapCells sboxRom s r c

@[simp] theorem cell_invSubBytes (s : CipherState) (r c : Fin 4) :
    (invSubBytes s).cell r c = invSboxRom (s.cell r c) :=
  CipherState.cell_mapCells invSboxRom s r c

@[simp] theorem cell_shiftRows (s : CipherState) (r c : Fin 4) : (shiftRows s).cell r c = s.cell r (c + r) :=
  CipherState.cell_ofCells _ r c

@[simp] theorem cell_invShiftRows (s : CipherState) (r c : Fin 4) : (invShiftRows s).cell r c = s.cell r (c - r) :=
  CipherState.cell_ofCells _ r c

@[simp] theorem cell_addRoundKey (s k : CipherState) (r c : Fin 4) :
    (addRoundKey s k).cell r c = s.cell r c ^^^ k.cell r c := by
  rw [addRoundKey, CipherState.cell_ofColumns, wordByte_xor]
  rfl

/-- Subtraction of columns, written as R84 writes it. -/
theorem column_sub_eq (c r : Fin 4) : c - r = ⟨(c.val + 4 - r.val) % 4, Nat.mod_lt _ (by decide)⟩ := by
  apply Fin.ext
  rw [Fin.val_sub]
  congr 1
  omega

/-- Settles O33: the model moves and maps cells; `Fin 4` adds and subtracts columns modulo 4. -/
theorem cellwiseTransformations : Obligations.CellwiseTransformations := fun s k r c =>
  ⟨cell_subBytes s r c, cell_invSubBytes s r c, cell_shiftRows s r c,
    by rw [cell_invShiftRows, column_sub_eq], cell_addRoundKey s k r c⟩

/-! ### MixColumns and InvMixColumns as products of polynomials (R85, R86)

A column is a polynomial over GF(2^8) with byte `i` the coefficient of `x^i`. R85 and R86 multiply it by a fixed
polynomial modulo `x^4 + 1`: that is what a matrix does whose rows are each the previous one rotated one place right. -/

/-- The product of two words as polynomials modulo `x^4 + 1`. -/
def wordMul (k w : Word) : Word :=
  { b0 := gfMultiply k.b0 w.b0 ^^^ gfMultiply k.b3 w.b1 ^^^ gfMultiply k.b2 w.b2 ^^^ gfMultiply k.b1 w.b3
    b1 := gfMultiply k.b1 w.b0 ^^^ gfMultiply k.b0 w.b1 ^^^ gfMultiply k.b3 w.b2 ^^^ gfMultiply k.b2 w.b3
    b2 := gfMultiply k.b2 w.b0 ^^^ gfMultiply k.b1 w.b1 ^^^ gfMultiply k.b0 w.b2 ^^^ gfMultiply k.b3 w.b3
    b3 := gfMultiply k.b3 w.b0 ^^^ gfMultiply k.b2 w.b1 ^^^ gfMultiply k.b1 w.b2 ^^^ gfMultiply k.b0 w.b3 }

/-- The polynomial of R85: the first column of its matrix. -/
def mixPolynomial : Word := ⟨2, 1, 1, 3⟩

/-- The polynomial of R86: the first column of its matrix. -/
def invMixPolynomial : Word := ⟨14, 9, 13, 11⟩

theorem mixColumn_eq_wordMul (w : Word) : mixColumn w = wordMul mixPolynomial w := by
  simp only [mixColumn, wordMul, mixPolynomial, gfMultiply_one_left, times3_eq_gfMultiply, ← gfMultiply_two_right,
    gfMultiply_comm _ 2, gfMultiply_comm _ 3]

theorem invMixColumn_eq_wordMul (w : Word) : invMixColumn w = wordMul invMixPolynomial w := by
  simp only [invMixColumn, wordMul, invMixPolynomial, times9_eq_gfMultiply, times11_eq_gfMultiply,
    times13_eq_gfMultiply, times14_eq_gfMultiply, gfMultiply_comm _ 9, gfMultiply_comm _ 11, gfMultiply_comm _ 13,
    gfMultiply_comm _ 14]

theorem column_mixColumns (s : CipherState) (c : Fin 4) :
    (mixColumns s).column c = wordMul mixPolynomial (s.column c) := by
  rw [mixColumns, CipherState.column_ofColumns, mixColumn_eq_wordMul]

theorem column_invMixColumns (s : CipherState) (c : Fin 4) :
    (invMixColumns s).column c = wordMul invMixPolynomial (s.column c) := by
  rw [invMixColumns, CipherState.column_ofColumns, invMixColumn_eq_wordMul]

/-- Settles O34: the four equations are the coefficients of the product of polynomials. -/
theorem mixColumnsEquations : Obligations.MixColumnsEquations := by
  intro s c
  simp only [CipherState.cell, column_mixColumns, column_invMixColumns, wordMul, mixPolynomial, invMixPolynomial,
    gfMultiply_one_left]
  exact ⟨rfl, rfl, rfl, rfl, rfl, rfl, rfl, rfl⟩

/-! ### The inverse laws (R88) -/

/-- Multiplication by `a` passes through the loop that multiplies `b` by `c`. -/
theorem gfMultiply_assoc (a b c : Byte) : gfMultiply (gfMultiply a b) c = gfMultiply a (gfMultiply b c) := by
  calc gfMultiply (gfMultiply a b) c = gfLoop 8 (gfMultiply a b) c (gfMultiply a 0) := by
        rw [gfMultiply_zero_right, gfMultiply]
    _ = gfMultiply a (gfMultiply b c) :=
        (map_gfLoop (gfMultiply_xor_right a) (gfMultiply_times2_right a) 8 b c 0).symm

/-- Both products sum the same sixteen products of coefficients into each coefficient. -/
theorem wordMul_assoc (k l w : Word) : wordMul (wordMul k l) w = wordMul k (wordMul l w) := by
  simp only [wordMul, gfMultiply_xor_left, gfMultiply_xor_right, gfMultiply_assoc]
  congr 1 <;> ac_rfl

@[simp] theorem one_wordMul (w : Word) : wordMul ⟨1, 0, 0, 0⟩ w = w := by
  simp only [wordMul, gfMultiply_one_left, gfMultiply_zero_left]
  simp

/-- The two polynomials are inverse to each other (90_conflicts.md C2). -/
theorem invMixPolynomial_mul_mixPolynomial : wordMul invMixPolynomial mixPolynomial = ⟨1, 0, 0, 0⟩ := by decide

theorem mixPolynomial_mul_invMixPolynomial : wordMul mixPolynomial invMixPolynomial = ⟨1, 0, 0, 0⟩ := by decide

theorem CipherState.ext_columns {s t : CipherState} (h : ∀ c, s.column c = t.column c) : s = t :=
  ext_cells fun r c => congrArg (wordByte · r) (h c)

@[simp] theorem invMixColumns_mixColumns (s : CipherState) : invMixColumns (mixColumns s) = s := by
  apply CipherState.ext_columns
  intro c
  rw [column_invMixColumns, column_mixColumns, ← wordMul_assoc, invMixPolynomial_mul_mixPolynomial, one_wordMul]

@[simp] theorem mixColumns_invMixColumns (s : CipherState) : mixColumns (invMixColumns s) = s := by
  apply CipherState.ext_columns
  intro c
  rw [column_mixColumns, column_invMixColumns, ← wordMul_assoc, mixPolynomial_mul_invMixPolynomial, one_wordMul]

@[simp] theorem invSubBytes_subBytes (s : CipherState) : invSubBytes (subBytes s) = s := by
  ext r c
  simp

@[simp] theorem subBytes_invSubBytes (s : CipherState) : subBytes (invSubBytes s) = s := by
  ext r c
  simp

@[simp] theorem invShiftRows_shiftRows (s : CipherState) : invShiftRows (shiftRows s) = s := by
  ext r c
  rw [cell_invShiftRows, cell_shiftRows, sub_add_cancel]

@[simp] theorem shiftRows_invShiftRows (s : CipherState) : shiftRows (invShiftRows s) = s := by
  ext r c
  rw [cell_shiftRows, cell_invShiftRows, add_sub_cancel_right]

@[simp] theorem addRoundKey_addRoundKey (s k : CipherState) : addRoundKey (addRoundKey s k) k = s := by
  ext r c
  simp

/-- SubBytes maps cells and ShiftRows moves them. -/
theorem subBytes_shiftRows (s : CipherState) : subBytes (shiftRows s) = shiftRows (subBytes s) := by
  ext r c
  simp

theorem invSubBytes_invShiftRows (s : CipherState) : invSubBytes (invShiftRows s) = invShiftRows (invSubBytes s) := by
  ext r c
  simp

/-- Settles O35: all laws hold cell by cell except those of MixColumns, where the two polynomials cancel. -/
theorem transformationInverseLaws : Obligations.TransformationInverseLaws := fun s k =>
  ⟨invSubBytes_subBytes s, subBytes_invSubBytes s, invShiftRows_shiftRows s, shiftRows_invShiftRows s,
    invMixColumns_mixColumns s, mixColumns_invMixColumns s, addRoundKey_addRoundKey s k, subBytes_shiftRows s,
    invSubBytes_invShiftRows s⟩

end Sys2Proof.Machine
end

section
/-! The commands on the stepping State (43_round_transforms.md R89 to R97). -/

namespace Sys2Proof.Machine

/-! ### Operands and registers -/

@[simp] theorem blockOfBytes_toList (b : Block) : blockOfBytes b.toList = b := by
  apply Vector.ext
  intro i hi
  simp [blockOfBytes]

/-- A legal command over the bound raises INVALID_PAYLOAD_LENGTH, whatever its form. -/
theorem takePayload_not_fits {i : Instr} {s : State} (hwf : i.wf s.cfg = true) (hfits : ¬s.fits) :
    takePayload i s = .error .invalidPayloadLength :=
  (takePayload_eq_error_iff ..).mpr (.inr (.inl ⟨hwf, hfits, rfl⟩))

/-- A legal command within the bound raises its own status for a wrong length. -/
theorem takePayload_wrongLength {i : Instr} {s : State} {n : Nat} (hwf : i.wf s.cfg = true)
    (hform : payloadForm i = .exactly n) (hlen : s.input.length ≠ n) (hfits : s.fits) :
    takePayload i s = .error (wrongLengthStatus i) :=
  (takePayload_eq_error_iff ..).mpr (.inr (.inr ⟨hwf, hfits, by simp [hform, PayloadForm.accepts, hlen], rfl⟩))

/-- A command that takes no payload refuses one with INVALID_PAYLOAD_LENGTH, within the bound or over it. -/
theorem takePayload_nonempty_error {i : Instr} {s : State} (hwf : i.wf s.cfg = true)
    (hform : payloadForm i = .exactly 0) (hstatus : wrongLengthStatus i = .invalidPayloadLength) (hin : s.input ≠ []) :
    takePayload i s = .error .invalidPayloadLength :=
  takePayload_exactly_error hwf hform hstatus (.inl (by simpa using hin))

theorem readKeys_noKey {s : State} (hkey : s.rkv = false) : s.readKeys = .error .noKey :=
  (readKeys_eq_error_iff ..).mpr ⟨.inl hkey, rfl⟩

theorem readStepState_noState {s : State} (hstv : s.stv = false) : s.readStepState = .error .noState :=
  (readStepState_eq_error_iff ..).mpr ⟨.inl hstv, rfl⟩

/-! ### LDST and RDST (R89, R90) -/

/-- Settles O36: LDST writes what its payload check lets through, or raises the status the check gives. -/
theorem ldstCommand : Obligations.LdstCommand := by
  refine ⟨fun _ => rfl, fun s => ⟨fun b hin hfits => ?_, fun hlen hfits => ?_, fun hfits => ?_⟩⟩
  · have hp : takePayload .ldst s = .ok s.input := takePayload_exactly_ok rfl rfl (by simp [hin]) hfits
    simp only [exec, execLdst, hp, except_ok_bind, hin, blockOfBytes_toList]
    rfl
  · have hp : takePayload .ldst s = .error .invalidBlockLength := takePayload_wrongLength rfl rfl hlen hfits
    simp [exec, execLdst, hp]
  · have hp : takePayload .ldst s = .error .invalidPayloadLength := takePayload_not_fits rfl hfits
    simp [exec, execLdst, hp]

/-- Settles O37: RDST passes its payload check, then reads ST or raises NO_STATE. -/
theorem rdstCommand : Obligations.RdstCommand := by
  refine ⟨fun _ => rfl, fun s => ⟨fun x hin hstv hst => ?_, fun hin hstv => ?_, fun hin => ?_⟩⟩
  · have hp : takePayload .rdst s = .ok s.input := takePayload_nil_ok rfl rfl hin
    simp [exec, execRdst, hp, (readStepState_eq_ok_iff ..).mpr ⟨hstv, hst⟩]
  · have hp : takePayload .rdst s = .ok s.input := takePayload_nil_ok rfl rfl hin
    simp [exec, execRdst, hp, readStepState_noState hstv]
  · have hp : takePayload .rdst s = .error .invalidPayloadLength := takePayload_nonempty_error rfl rfl rfl hin
    simp [exec, execRdst, hp]

/-! ### The transformation commands (R91 to R96) -/

/-- The end of a command that applies `f` to ST: the write of ST, NO_STATE, or the status of a payload. -/
theorem finish_transformStep {i : Instr} {s : State} (f : CipherState → CipherState) (hwf : i.wf s.cfg = true)
    (hform : payloadForm i = .exactly 0) (hstatus : wrongLengthStatus i = .invalidPayloadLength) :
    (∀ y : CipherState, s.input = [] → s.stv = true → s.st = some y →
      s.finish (s.transformStep i f) = .next ((s.writeStepState (f y)).respond ⟨.ok, [], []⟩)) ∧
    (s.input = [] → s.stv = false → s.finish (s.transformStep i f) = .next (s.raise .noState)) ∧
    (s.input ≠ [] → s.finish (s.transformStep i f) = .next (s.raise .invalidPayloadLength)) := by
  refine ⟨fun y hin hstv hst => ?_, fun hin hstv => ?_, fun hin => ?_⟩
  · have hp : takePayload i s = .ok s.input := takePayload_nil_ok hwf hform hin
    rw [(transformStep_eq_ok_iff ..).mpr ⟨⟨_, hp⟩, y, hstv, hst, rfl⟩, State.finish_ok]
  · simp [State.transformStep, takePayload_nil_ok hwf hform hin, readStepState_noState hstv]
  · simp [State.transformStep, takePayload_nonempty_error hwf hform hstatus hin]

/-- Settles O38: each of the six is `finish` of a `transformStep` with its transformation. -/
theorem transformationCommands : Obligations.TransformationCommands := by
  simp only [Obligations.TransformationCommands, List.forall_mem_cons]
  exact ⟨⟨fun _ => rfl, fun _ => finish_transformStep subBytes rfl rfl rfl⟩,
    ⟨fun _ => rfl, fun _ => finish_transformStep invSubBytes rfl rfl rfl⟩,
    ⟨fun _ => rfl, fun _ => finish_transformStep shiftRows rfl rfl rfl⟩,
    ⟨fun _ => rfl, fun _ => finish_transformStep invShiftRows rfl rfl rfl⟩,
    ⟨fun _ => rfl, fun _ => finish_transformStep mixColumns rfl rfl rfl⟩,
    ⟨fun _ => rfl, fun _ => finish_transformStep invMixColumns rfl rfl rfl⟩,
    List.forall_mem_nil _⟩

/-! ### ADDRK (R97) -/

/-- The index of a round key fits the IDX field. -/
theorem toNat_ofNat_roundIndex (r : Fin 15) : (BitVec.ofNat 4 r.val).toNat = r.val := by
  rw [BitVec.toNat_ofNat]
  omega

theorem keyIndex_ofNat (r : Fin 15) : keyIndex (BitVec.ofNat 4 r.val) = r := by
  simp only [keyIndex, toNat_ofNat_roundIndex, r.isLt, dite_true]

theorem wf_addrk_ofNat (c : Config) (r : Fin 15) : (Instr.addrk (BitVec.ofNat 4 r.val)).wf c = true := by
  rw [Instr.wf, keyIndexLegal, toNat_ofNat_roundIndex]
  exact decide_eq_true (by omega)

/-- The TR that `encode` puts into the word is 0. -/
theorem encode_addrk (idx : BitVec 4) : encode (.addrk idx) = 0x00000036 ||| (idx.setWidth 32 <<< 8) :=
  BitVec.or_zero

theorem setWidth_ofNat_roundIndex (r : Fin 15) : (BitVec.ofNat 4 r.val).setWidth 32 = BitVec.ofNat 32 r.val := by
  apply BitVec.eq_of_toNat_eq
  rw [BitVec.toNat_setWidth, toNat_ofNat_roundIndex, BitVec.toNat_ofNat]

theorem decode_encode_addrk {c : Config} {idx : BitVec 4} (hwf : (Instr.addrk idx).wf c = true) :
    decode c (encode (.addrk idx)) = .ok (.addrk idx) :=
  decode_encode_of_fillForm ((checkWellFormed_eq_ok_iff ..).mpr ⟨hwf, rfl⟩)

/-- Settles O39: the word is the encoding of ADDRK #r; the clauses follow the checks in their order, the payload check,
NO_KEY, NO_STATE. -/
theorem addrkCommand : Obligations.AddrkCommand := by
  refine ⟨fun c r => ?_, fun s => ⟨fun r => ?_, ?_⟩⟩
  · rw [← setWidth_ofNat_roundIndex, ← encode_addrk]
    exact decode_encode_addrk (wf_addrk_ofNat c r)
  · have hwf := wf_addrk_ofNat s.cfg r
    refine ⟨fun k y hin hrkv hrk hstv hst => ?_, fun k hin hrkv hrk hstv => ?_, fun hin hrkv => ?_, fun hin => ?_⟩
    · simp only [exec, execAddrk, takePayload_nil_ok hwf rfl hin, (readKeys_eq_ok_iff ..).mpr ⟨hrkv, hrk⟩,
        (readStepState_eq_ok_iff ..).mpr ⟨hstv, hst⟩, except_ok_bind, keyIndex_ofNat]
      rfl
    · simp [exec, execAddrk, takePayload_nil_ok hwf rfl hin, (readKeys_eq_ok_iff ..).mpr ⟨hrkv, hrk⟩,
        readStepState_noState hstv]
    · simp [exec, execAddrk, takePayload_nil_ok hwf rfl hin, readKeys_noKey hrkv]
    · simp [exec, execAddrk, takePayload_nonempty_error hwf rfl rfl hin]
  · have hp : takePayload (.addrk 15) s = .error .illegalCommand :=
      (takePayload_eq_error_iff ..).mpr (.inl ⟨rfl, rfl⟩)
    simp only [exec, execAddrk, hp, except_error_bind, State.finish_error]

end Sys2Proof.Machine
end

section
/-! The key schedule (44_key_schedule.md R98 to R108): the words expandKey makes, the round keys made of them, and the
commands of the key-schedule expander. -/

namespace Sys2Proof.Machine

/-! ### The recurrence (R100) -/

/-- The first word appended is the recurrence's, also when it is read from the finished list: the later steps leave the
words it is made of alone. -/
theorem getD_extendWords_succ (n : Nat) {vs : List Word} (hpos : 0 < vs.length) :
    (extendWords (n + 1) vs).getD vs.length .zero =
      (scheduleCore vs.length ((extendWords (n + 1) vs).getD (vs.length - 1) .zero)).xor
        ((extendWords (n + 1) vs).getD (vs.length - 8) .zero) := by
  rw [getD_extendWords_length, getD_extendWords_of_lt _ _ (by omega : vs.length - 1 < vs.length),
    getD_extendWords_of_lt _ _ (by omega : vs.length - 8 < vs.length)]

/-- Every word after the key's satisfies the recurrence: cut the 52 steps before the one that appends it. -/
theorem expandKey_getD_of_ge (key : Payload) {i : Nat} (hlow : 8 ≤ i) (hhigh : i < 60) :
    (expandKey key).getD i .zero =
      (scheduleCore i ((expandKey key).getD (i - 1) .zero)).xor ((expandKey key).getD (i - 8) .zero) := by
  have hlen : (extendWords (i - 8) (keyWords key)).length = i := by
    rw [length_extendWords, length_keyWords]
    omega
  have hcut : expandKey key = extendWords (59 - i + 1) (extendWords (i - 8) (keyWords key)) := by
    rw [← extendWords_add, expandKey]
    congr 1
    omega
  have hstep := getD_extendWords_succ (59 - i) (vs := extendWords (i - 8) (keyWords key)) (by omega)
  rwa [← hcut, hlen] at hstep

/-- Settles O41: the first eight words are read from the key, and each step appends one word of the recurrence. -/
theorem expandKeyRecurrence : Obligations.ExpandKeyRecurrence := by
  intro key hkey
  refine ⟨by rw [expandKey, length_extendWords, length_keyWords], fun j hj => ?_, fun i => expandKey_getD_of_ge key⟩
  calc ((expandKey key).getD j .zero).bytes = (wordAt key j).bytes := by rw [expandKey_getD_of_lt key hj]
    _ = (key.drop (4 * j)).take 4 := wordAt_bytes key (by omega)

/-! ### The round keys (R102, R103) -/

/-- Column `c` of round key `r` is word `4r + c` of the expansion (R102). -/
theorem column_roundKeysOf (key : Payload) (r : Fin 15) (c : Fin 4) :
    (roundKeysOf key)[r].column c = (expandKey key).getD (4 * r.val + c.val) .zero :=
  column_reshapeWords (expandKey key) r c

theorem cell_roundKeysOf (key : Payload) (r : Fin 15) (c k : Fin 4) :
    (roundKeysOf key)[r].cell k c = wordByte ((expandKey key).getD (4 * r.val + c.val) .zero) k := by
  rw [CipherState.cell, column_roundKeysOf]

theorem stateToBlock_toList_columns (s : CipherState) :
    (stateToBlock s).toList =
      (s.column 0).bytes ++ (s.column 1).bytes ++ (s.column 2).bytes ++ (s.column 3).bytes :=
  stateToBlock_toList s

/-- Round key `r` in block order is words `4r` to `4r + 3` (R103). -/
theorem stateToBlock_roundKeysOf (key : Payload) (r : Fin 15) :
    (stateToBlock (roundKeysOf key)[r]).toList =
      ((expandKey key).getD (4 * r.val) .zero).bytes ++ ((expandKey key).getD (4 * r.val + 1) .zero).bytes ++
      ((expandKey key).getD (4 * r.val + 2) .zero).bytes ++ ((expandKey key).getD (4 * r.val + 3) .zero).bytes := by
  simp only [stateToBlock_toList_columns, column_roundKeysOf]
  rfl

/-- Four words in a row are sixteen bytes in a row. -/
theorem bytes_of_four_words (l : Payload) {j : Nat} (h : 4 * j + 16 ≤ l.length) :
    (wordAt l j).bytes ++ (wordAt l (j + 1)).bytes ++ (wordAt l (j + 2)).bytes ++ (wordAt l (j + 3)).bytes =
      (l.drop (4 * j)).take 16 := by
  have hsplit (i : Nat) : (l.drop (4 * j)).take (i + 4) = (l.drop (4 * j)).take i ++ (l.drop (4 * j + i)).take 4 := by
    rw [List.take_add, List.drop_drop]
  simp (disch := omega) only [wordAt_bytes]
  rw [hsplit 12, hsplit 8, hsplit 4]
  rfl

/-- The first two round keys hold only words of the key (R103). -/
theorem stateToBlock_roundKeysOf_key {key : Payload} (hkey : key.length = 32) (r : Fin 15) (hr : r.val < 2) :
    (stateToBlock (roundKeysOf key)[r]).toList = (key.drop (16 * r.val)).take 16 := by
  have hstart : 4 * (4 * r.val) = 16 * r.val := by omega
  simp (disch := omega) only [stateToBlock_roundKeysOf, expandKey_getD_of_lt]
  rw [bytes_of_four_words key (by omega), hstart]

/-- Settles O42: the reshaping puts word `4r + c` into column `c`, and words 0 to 7 are the key's. -/
theorem roundKeysReshapeWords : Obligations.RoundKeysReshapeWords := by
  intro key hkey
  refine ⟨cell_roundKeysOf key, stateToBlock_roundKeysOf key, stateToBlock_roundKeysOf_key hkey 0 (by decide), ?_⟩
  have hhalf : (key.drop 16).take 16 = key.drop 16 := List.take_of_length_le (by rw [List.length_drop]; omega)
  exact (stateToBlock_roundKeysOf_key hkey 1 (by decide)).trans hhalf

/-! ### ROTW and SUBW (R105, R106) -/

/-- The end of a one-word command whose wrong length raises INVALID_PAYLOAD_LENGTH: the function of its word, or that
status and nothing else. -/
theorem finish_wordCommand {i : Instr} {s : State} (f : Word → Word) (hwf : i.wf s.cfg = true)
    (hform : payloadForm i = .exactly 4) (hstatus : wrongLengthStatus i = .invalidPayloadLength) :
    (∀ a b c d : Byte, s.input = [a, b, c, d] → s.fits →
      s.finish (s.wordCommand i f) = .next (s.respond ⟨.ok, (f ⟨a, b, c, d⟩).bytes, []⟩)) ∧
    (s.input.length ≠ 4 ∨ ¬s.fits →
      s.finish (s.wordCommand i f) = .next (s.raise .invalidPayloadLength)) := by
  rw [wordCommand_eq]
  refine ⟨fun a b c d hin hfits => ?_, fun h => ?_⟩
  · rw [takePayload_exactly_ok hwf hform (by simp [hin]) hfits, hin]
    rfl
  · rw [takePayload_exactly_error hwf hform hstatus h]
    rfl

/-- Settles O40: each of the two is `finish` of a one-word command with its function. -/
theorem wordCommands : Obligations.WordCommands := by
  refine ⟨fun _ => ⟨rfl, rfl⟩, fun s => ?_⟩
  obtain ⟨hrotOk, hrotErr⟩ := finish_wordCommand (i := .rotw) (s := s) rotWord rfl rfl rfl
  obtain ⟨hsubOk, hsubErr⟩ := finish_wordCommand (i := .subw) (s := s) subWord rfl rfl rfl
  exact ⟨fun a b c d hin hfits => ⟨hrotOk a b c d hin hfits, hsubOk a b c d hin hfits⟩,
    fun h => ⟨hrotErr h, hsubErr h⟩⟩

/-! ### SETKEY (R107) -/

/-- Settles O44: SETKEY writes the round keys of what its payload check lets through, or raises the status the check
gives. -/
theorem setkeyCommand : Obligations.SetkeyCommand := by
  refine ⟨fun _ => rfl, fun s => ⟨fun hlen hfits => ⟨roundKeysOf s.input, ?_, cell_roundKeysOf s.input⟩,
    fun hlen hfits => ?_, fun hfits => ?_⟩⟩
  · have hp : takePayload .setkey s = .ok s.input := takePayload_exactly_ok rfl rfl hlen hfits
    simp only [exec, execSetkey, hp, except_ok_bind]
    rfl
  · have hp : takePayload .setkey s = .error .invalidKeyLength := takePayload_wrongLength rfl rfl hlen hfits
    simp [exec, execSetkey, hp]
  · have hp : takePayload .setkey s = .error .invalidPayloadLength := takePayload_not_fits rfl hfits
    simp [exec, execSetkey, hp]

/-! ### RDRK (R108) -/

theorem wf_rdrk_iff (c : Config) (idx : BitVec 4) :
    (Instr.rdrk idx).wf c = true ↔ idx.toNat ≤ 14 ∧ c.instr = true := by
  simp [Instr.wf, keyIndexLegal]

theorem wf_rdrk_ofNat {c : Config} (r : Fin 15) (hinstr : c.instr = true) :
    (Instr.rdrk (BitVec.ofNat 4 r.val)).wf c = true := by
  rw [wf_rdrk_iff, toNat_ofNat_roundIndex]
  exact ⟨by omega, hinstr⟩

theorem wf_rdrk_eq_false {c : Config} {idx : BitVec 4} (h : c.instr = false ∨ idx = 15) :
    (Instr.rdrk idx).wf c = false := by
  rw [← Bool.not_eq_true, wf_rdrk_iff]
  rintro ⟨hidx, hinstr⟩
  rcases h with hoff | rfl
  · exact absurd hinstr (by rw [hoff]; decide)
  · exact absurd hidx (by decide)

/-- The TR that `encode` puts into the word is 0. -/
theorem encode_rdrk (idx : BitVec 4) : encode (.rdrk idx) = 0x00000043 ||| (idx.setWidth 32 <<< 8) :=
  BitVec.or_zero

/-- A command's own word passes its form, so only the decode check is left: it decodes exactly when it is legal. -/
theorem decode_encode_eq_checkWellFormed (c : Config) (i : Instr) : decode c (encode i) = checkWellFormed c i := by
  rw [decode, wordFields_encode]
  cases i <;> rfl

/-- Settles O45: the word is the encoding of RDRK #r; the clauses follow the checks in their order, the decode check, the
payload check, NO_KEY. -/
theorem rdrkCommand : Obligations.RdrkCommand := by
  refine ⟨fun c r hinstr => ?_, fun s => ⟨fun r hinstr => ?_, fun idx hillegal => ?_⟩⟩
  · rw [← setWidth_ofNat_roundIndex, ← encode_rdrk, decode_encode_eq_checkWellFormed]
    exact (checkWellFormed_eq_ok_iff ..).mpr ⟨wf_rdrk_ofNat r hinstr, rfl⟩
  · have hwf := wf_rdrk_ofNat r hinstr
    refine ⟨fun k hin hrkv hrk => ?_, fun hin hrkv => ?_, fun hin => ?_⟩
    · simp [exec, execRdrk, takePayload_nil_ok hwf rfl hin, (readKeys_eq_ok_iff ..).mpr ⟨hrkv, hrk⟩, keyIndex_ofNat]
    · simp [exec, execRdrk, takePayload_nil_ok hwf rfl hin, readKeys_noKey hrkv]
    · simp [exec, execRdrk, takePayload_nonempty_error hwf rfl rfl hin]
  · have hwf := wf_rdrk_eq_false hillegal
    have hp : takePayload (.rdrk idx) s = .error .illegalCommand :=
      (takePayload_eq_error_iff ..).mpr (.inl ⟨hwf, rfl⟩)
    refine ⟨fun i hdec => ?_, by simp [exec, execRdrk, hp]⟩
    rw [decode_encode_eq_checkWellFormed, checkWellFormed_eq_ok_iff, hwf] at hdec
    exact Bool.false_ne_true hdec.1

end Sys2Proof.Machine
end

section
/-! The block cipher (45_block_cipher.md R109 to R118): both passes as one schedule of transformations, the round trip,
the traces, the commands, and stepping a block by hand. -/

namespace Sys2Proof.Machine

/-! ### A pass is its schedule (R111) -/

/-- The State after a list of transformations, first one first. -/
def runTransforms (rk : RoundKeys) (fs : List Transform) (t : CipherState) : CipherState :=
  fs.foldl (fun t f => applyTransform rk f t) t

@[simp] theorem runTransforms_nil (rk : RoundKeys) (t : CipherState) : runTransforms rk [] t = t := rfl

@[simp] theorem runTransforms_cons (rk : RoundKeys) (f : Transform) (fs : List Transform) (t : CipherState) :
    runTransforms rk (f :: fs) t = runTransforms rk fs (applyTransform rk f t) := rfl

theorem runTransforms_append (rk : RoundKeys) (fs gs : List Transform) (t : CipherState) :
    runTransforms rk (fs ++ gs) t = runTransforms rk gs (runTransforms rk fs t) :=
  List.foldl_append

theorem encryptState_eq_runTransforms (t : CipherState) (rk : RoundKeys) :
    encryptState t rk = runTransforms rk encryptSchedule t := rfl

theorem decryptState_eq_runTransforms (t : CipherState) (rk : RoundKeys) :
    decryptState t rk = runTransforms rk decryptSchedule t := rfl

/-! ### The round trip (R112) -/

/-- The transformation that undoes a transformation under the same round keys (R88). -/
def Transform.inverse : Transform → Transform
  | .subBytes => .invSubBytes
  | .invSubBytes => .subBytes
  | .shiftRows => .invShiftRows
  | .invShiftRows => .shiftRows
  | .mixColumns => .invMixColumns
  | .invMixColumns => .mixColumns
  | .addRoundKey r => .addRoundKey r

theorem applyTransform_inverse (rk : RoundKeys) (f : Transform) (t : CipherState) :
    applyTransform rk f.inverse (applyTransform rk f t) = t := by
  cases f with
  | subBytes => exact invSubBytes_subBytes t
  | invSubBytes => exact subBytes_invSubBytes t
  | shiftRows => exact invShiftRows_shiftRows t
  | invShiftRows => exact shiftRows_invShiftRows t
  | mixColumns => exact invMixColumns_mixColumns t
  | invMixColumns => exact mixColumns_invMixColumns t
  | addRoundKey r => exact addRoundKey_addRoundKey t rk[r]

/-- A schedule is undone by the inverses of its transformations, last one first. -/
theorem runTransforms_reverse_inverse (rk : RoundKeys) (fs : List Transform) (t : CipherState) :
    runTransforms rk (fs.map Transform.inverse).reverse (runTransforms rk fs t) = t := by
  induction fs generalizing t with
  | nil => rfl
  | cons f fs ih =>
    rw [List.map_cons, List.reverse_cons, runTransforms_append, runTransforms_cons rk f fs, ih]
    exact applyTransform_inverse rk f t

/-- Decryption mirrors encryption exactly, round keys included, so there is no second key schedule (R110). -/
theorem decryptSchedule_eq_reverse_inverse :
    decryptSchedule = (encryptSchedule.map Transform.inverse).reverse := by decide

theorem encryptSchedule_eq_reverse_inverse :
    encryptSchedule = (decryptSchedule.map Transform.inverse).reverse := by decide

@[simp] theorem decryptState_encryptState (t : CipherState) (rk : RoundKeys) :
    decryptState (encryptState t rk) rk = t := by
  rw [decryptState_eq_runTransforms, encryptState_eq_runTransforms, decryptSchedule_eq_reverse_inverse,
    runTransforms_reverse_inverse]

@[simp] theorem encryptState_decryptState (t : CipherState) (rk : RoundKeys) :
    encryptState (decryptState t rk) rk = t := by
  rw [encryptState_eq_runTransforms, decryptState_eq_runTransforms, encryptSchedule_eq_reverse_inverse,
    runTransforms_reverse_inverse]

/-- Settles O46: each schedule is the other one reversed with every transformation inverted. -/
theorem blockCipherRoundTrip : Obligations.BlockCipherRoundTrip := by
  intro b rk
  simp only [encryptBlock, decryptBlock, blockToState_stateToBlock, decryptState_encryptState,
    encryptState_decryptState, stateToBlock_blockToState, and_self]

/-! ### The traces (R113, R114) -/

/-- The blocks after each transformation of a schedule. -/
def traceOf (rk : RoundKeys) (fs : List Transform) (b : Block) : List Block :=
  (statesAfter rk fs (blockToState b)).map stateToBlock

theorem encryptTrace_eq_traceOf (b : Block) (rk : RoundKeys) : encryptTrace b rk = traceOf rk encryptSchedule b := rfl

theorem decryptTrace_eq_traceOf (b : Block) (rk : RoundKeys) : decryptTrace b rk = traceOf rk decryptSchedule b := rfl

@[simp] theorem length_statesAfter (rk : RoundKeys) (fs : List Transform) (t : CipherState) :
    (statesAfter rk fs t).length = fs.length := by
  induction fs generalizing t with
  | nil => rfl
  | cons f fs ih => rw [statesAfter, List.length_cons, List.length_cons, ih]

@[simp] theorem length_traceOf (rk : RoundKeys) (fs : List Transform) (b : Block) :
    (traceOf rk fs b).length = fs.length := by
  rw [traceOf, List.length_map, length_statesAfter]

/-- Entry `n` is the State after the first `n + 1` transformations. -/
theorem statesAfter_getElem? (rk : RoundKeys) (fs : List Transform) (t : CipherState) {n : Nat} (hn : n < fs.length) :
    (statesAfter rk fs t)[n]? = some (runTransforms rk (fs.take (n + 1)) t) := by
  induction fs generalizing t n with
  | nil => exact absurd hn (Nat.not_lt_zero n)
  | cons f fs ih =>
    cases n with
    | zero => rfl
    | succ n =>
      rw [statesAfter, List.getElem?_cons_succ, ih _ (Nat.lt_of_succ_lt_succ hn), List.take_succ_cons,
        runTransforms_cons]

theorem traceOf_getElem? (rk : RoundKeys) (fs : List Transform) (b : Block) {n : Nat} (hn : n < fs.length) :
    (traceOf rk fs b)[n]? = some (stateToBlock (runTransforms rk (fs.take (n + 1)) (blockToState b))) := by
  rw [traceOf, List.getElem?_map, statesAfter_getElem? rk fs _ hn, Option.map_some]

theorem traceOf_getD (rk : RoundKeys) (fs : List Transform) (b d : Block) {n : Nat} (hn : n < fs.length) :
    (traceOf rk fs b).getD n d = stateToBlock (runTransforms rk (fs.take (n + 1)) (blockToState b)) := by
  rw [List.getD_eq_getElem?_getD, traceOf_getElem? rk fs b hn, Option.getD_some]

/-- Each entry is made from the one before it by its own transformation of the schedule. -/
theorem traceOf_getD_succ (rk : RoundKeys) {fs : List Transform} (b d : Block) {f : Transform} {m n : Nat}
    (hf : fs[n]? = some f) (hn : n = m + 1) :
    (traceOf rk fs b).getD n d =
      stateToBlock (applyTransform rk f (blockToState ((traceOf rk fs b).getD m d))) := by
  obtain ⟨hlt, -⟩ := List.getElem?_eq_some_iff.mp hf
  have htake : fs.take (n + 1) = fs.take (m + 1) ++ [f] := by
    rw [List.take_add_one, hf, Option.toList_some, hn]
  rw [traceOf_getD rk fs b d hlt, traceOf_getD rk fs b d (by omega), htake, runTransforms_append,
    blockToState_stateToBlock, runTransforms_cons, runTransforms_nil]

/-- The last entry is the State at the end of the schedule. -/
theorem traceOf_getD_last (rk : RoundKeys) {fs : List Transform} (b d : Block) {n : Nat} (hlen : fs.length = n + 1) :
    (traceOf rk fs b).getD n d = stateToBlock (runTransforms rk fs (blockToState b)) := by
  rw [traceOf_getD rk fs b d (by omega), List.take_of_length_le (by omega)]

theorem encryptTrace_getD_zero (b d : Block) (rk : RoundKeys) :
    (encryptTrace b rk).getD 0 d = stateToBlock (addRoundKey (blockToState b) rk[0]) :=
  traceOf_getD rk encryptSchedule b d (by decide)

theorem decryptTrace_getD_zero (b d : Block) (rk : RoundKeys) :
    (decryptTrace b rk).getD 0 d = stateToBlock (addRoundKey (blockToState b) rk[14]) :=
  traceOf_getD rk decryptSchedule b d (by decide)

/-- Round `r` of encryption takes places `4r - 3` to `4r` of the schedule (R113). -/
theorem encryptSchedule_middleRound : ∀ r : Fin 15, 1 ≤ r.val → r.val ≤ 13 →
    encryptSchedule[4 * r.val - 3]? = some .subBytes ∧ encryptSchedule[4 * r.val - 2]? = some .shiftRows ∧
    encryptSchedule[4 * r.val - 1]? = some .mixColumns ∧ encryptSchedule[4 * r.val]? = some (.addRoundKey r) := by
  decide

/-- Round `r` of decryption takes places `4j + 1` to `4j + 4` of the schedule, with `j = 13 - r` (R114). -/
theorem decryptSchedule_middleRound : ∀ r : Fin 15, 1 ≤ r.val → r.val ≤ 13 →
    decryptSchedule[4 * (13 - r.val) + 1]? = some .invShiftRows ∧
    decryptSchedule[4 * (13 - r.val) + 2]? = some .invSubBytes ∧
    decryptSchedule[4 * (13 - r.val) + 3]? = some (.addRoundKey r) ∧
    decryptSchedule[4 * (13 - r.val) + 4]? = some .invMixColumns := by
  decide

/-! ### ENCB and DECB (R116, R117) -/

/-- What ENCB and DECB have in common: the payload check, RK, then a function of the block and the keys. -/
def State.blockCommand (s : State) (i : Instr) (f : Block → RoundKeys → Block)
    (trace : Block → RoundKeys → List Block) : Except Status Completion := do
  let p ← takePayload i s
  let k ← s.readKeys
  return ⟨s, (f (blockOfBytes p) k).toList, trace (blockOfBytes p) k⟩

theorem exec_encb_eq (tr : Bool) (s : State) :
    exec (.encb tr) s =
      s.finish (s.blockCommand (.encb tr) encryptBlock fun b k => if tr then encryptTrace b k else []) :=
  rfl

theorem exec_decb_eq (tr : Bool) (s : State) :
    exec (.decb tr) s =
      s.finish (s.blockCommand (.decb tr) decryptBlock fun b k => if tr then decryptTrace b k else []) :=
  rfl

/-- The end of a legal block command: its function of the block, NO_KEY, or the status of a payload. -/
theorem finish_blockCommand {i : Instr} {s : State} (f : Block → RoundKeys → Block)
    (trace : Block → RoundKeys → List Block) (hwf : i.wf s.cfg = true) (hform : payloadForm i = .exactly 16)
    (hstatus : wrongLengthStatus i = .invalidBlockLength) :
    (∀ (b : Block) (k : RoundKeys), s.input = b.toList → s.fits → s.rkv = true → s.rk = some k →
      s.finish (s.blockCommand i f trace) = .next (s.respond ⟨.ok, (f b k).toList, trace b k⟩)) ∧
    (s.input.length = 16 → s.fits → s.rkv = false →
      s.finish (s.blockCommand i f trace) = .next (s.raise .noKey)) ∧
    (s.input.length ≠ 16 → s.fits →
      s.finish (s.blockCommand i f trace) = .next (s.raise .invalidBlockLength)) ∧
    (¬s.fits → s.finish (s.blockCommand i f trace) = .next (s.raise .invalidPayloadLength)) := by
  unfold State.blockCommand
  refine ⟨fun b k hin hfits hrkv hrk => ?_, fun hlen hfits hrkv => ?_, fun hlen hfits => ?_, fun hfits => ?_⟩
  · have hlen : s.input.length = 16 := by rw [hin, Vector.length_toList]
    simp [takePayload_exactly_ok hwf hform hlen hfits, (readKeys_eq_ok_iff ..).mpr ⟨hrkv, hrk⟩, hin]
  · simp [takePayload_exactly_ok hwf hform hlen hfits, readKeys_noKey hrkv]
  · simp [takePayload_wrongLength hwf hform hlen hfits, hstatus]
  · simp [takePayload_not_fits hwf hfits]

/-- An illegal block command raises ILLEGAL_COMMAND before any other check. -/
theorem finish_blockCommand_illegal {i : Instr} {s : State} (f : Block → RoundKeys → Block)
    (trace : Block → RoundKeys → List Block) (hwf : i.wf s.cfg = false) :
    s.finish (s.blockCommand i f trace) = .next (s.raise .illegalCommand) := by
  have hp : takePayload i s = .error .illegalCommand := (takePayload_eq_error_iff ..).mpr (.inl ⟨hwf, rfl⟩)
  simp [State.blockCommand, hp]

theorem traceLegal_iff (c : Config) (tr : Bool) : traceLegal c tr = true ↔ (tr = true → c.instr = true) := by
  cases tr <;> simp [traceLegal]

/-- The word of a legal command decodes to it. -/
theorem decode_encode_of_wf {c : Config} {i : Instr} (hwf : i.wf c = true) : decode c (encode i) = .ok i := by
  rw [decode_encode_eq_checkWellFormed, checkWellFormed_eq_ok_iff]
  exact ⟨hwf, rfl⟩

/-- Settles O49: ENCB is a block command with `encryptBlock` and its trace. -/
theorem encbCommand : Obligations.EncbCommand := by
  refine ⟨fun c => ⟨rfl, fun hinstr => decode_encode_of_wf (i := .encb true) hinstr⟩,
    fun s => ⟨fun tr htr => ?_, fun hinstr => ?_⟩⟩
  · simp only [exec_encb_eq]
    exact finish_blockCommand _ _ ((traceLegal_iff ..).mpr htr) rfl rfl
  · rw [exec_encb_eq]
    exact finish_blockCommand_illegal _ _ hinstr

/-- Settles O50: DECB is a block command with `decryptBlock` and its trace. -/
theorem decbCommand : Obligations.DecbCommand := by
  refine ⟨fun c => ⟨rfl, fun hinstr => decode_encode_of_wf (i := .decb true) hinstr⟩,
    fun s => ⟨fun tr htr => ?_, fun hinstr => ?_⟩⟩
  · simp only [exec_decb_eq]
    exact finish_blockCommand _ _ ((traceLegal_iff ..).mpr htr) rfl rfl
  · rw [exec_decb_eq]
    exact finish_blockCommand_illegal _ _ hinstr

/-- Settles O47: entry `n` is made from the one before it by transformation `n` of the schedule. -/
theorem encryptionTraceEntries : Obligations.EncryptionTraceEntries := by
  intro b rk T S
  have hstep {m n : Nat} (f : Transform) (hf : encryptSchedule[n]? = some f) (hn : n = m + 1) :
      T n = stateToBlock (applyTransform rk f (S m)) := traceOf_getD_succ rk b _ hf hn
  refine ⟨length_traceOf rk encryptSchedule b, encryptTrace_getD_zero b _ rk, fun r hlow hhigh => ?_,
    hstep .subBytes rfl rfl, hstep .shiftRows rfl rfl, hstep (.addRoundKey 14) rfl rfl,
    traceOf_getD_last rk b _ rfl, fun s hinstr => ?_⟩
  · obtain ⟨hsub, hshift, hmix, hadd⟩ := encryptSchedule_middleRound r hlow hhigh
    exact ⟨hstep .subBytes hsub (by omega), hstep .shiftRows hshift (by omega), hstep .mixColumns hmix (by omega),
      hstep (.addRoundKey r) hadd (by omega)⟩
  · obtain ⟨-, hencb⟩ := encbCommand
    obtain ⟨hlegal, -⟩ := hencb s
    obtain ⟨hok, -⟩ := hlegal true fun _ => hinstr
    exact hok b rk

/-- Settles O48: as for encryption, with the schedule of decryption. -/
theorem decryptionTraceEntries : Obligations.DecryptionTraceEntries := by
  intro b rk T S
  have hstep {m n : Nat} (f : Transform) (hf : decryptSchedule[n]? = some f) (hn : n = m + 1) :
      T n = stateToBlock (applyTransform rk f (S m)) := traceOf_getD_succ rk b _ hf hn
  refine ⟨length_traceOf rk decryptSchedule b, decryptTrace_getD_zero b _ rk, fun r hlow hhigh => ?_,
    hstep .invShiftRows rfl rfl, hstep .invSubBytes rfl rfl, hstep (.addRoundKey 0) rfl rfl,
    traceOf_getD_last rk b _ rfl, fun s hinstr => ?_⟩
  · obtain ⟨hshift, hsub, hadd, hmix⟩ := decryptSchedule_middleRound r hlow hhigh
    exact ⟨hstep .invShiftRows hshift rfl, hstep .invSubBytes hsub rfl, hstep (.addRoundKey r) hadd rfl,
      hstep .invMixColumns hmix rfl⟩
  · obtain ⟨-, hdecb⟩ := decbCommand
    obtain ⟨hlegal, -⟩ := hdecb s
    obtain ⟨hok, -⟩ := hlegal true fun _ => hinstr
    exact hok b rk

/-! ### Stepping a block (R118) -/

/-- The command that performs a transformation on ST (R91 to R97). -/
def Transform.command : Transform → Instr
  | .subBytes => .subb
  | .invSubBytes => .isubb
  | .shiftRows => .shr
  | .invShiftRows => .ishr
  | .mixColumns => .mixc
  | .invMixColumns => .imixc
  | .addRoundKey r => .addrk (BitVec.ofNat 4 r.val)

theorem steppingEncrypt_eq_commands : steppingEncrypt = encryptSchedule.map Transform.command := by decide

theorem steppingDecrypt_eq_commands : steppingDecrypt = decryptSchedule.map Transform.command := by decide

/-- A core after `m` commands of a stepping sequence that began in `s`, each answered OK with no output; ST holds `t`. -/
def State.stepped (s : State) (t : CipherState) (m : Nat) : State :=
  { s with st := some t, stv := true, input := [], outbox := s.outbox ++ List.replicate m ⟨.ok, [], []⟩ }

theorem runCommands_cons_of_next {i : Instr} {p : Payload} {s t : State} (h : exec i (s.accept p) = .next t)
    (rest : List (Instr × Payload)) : runCommands ((i, p) :: rest) s = runCommands rest t := by
  rw [runCommands, h]

/-- Writing ST and answering OK is one more command of a stepping sequence. -/
theorem stepped_writeStepState_respond (s : State) (t u : CipherState) (m : Nat) :
    (((s.stepped t m).accept []).writeStepState u).respond ⟨.ok, [], []⟩ = s.stepped u (m + 1) := by
  simp [State.stepped, State.accept, State.writeStepState, State.respond, List.replicate_succ']

theorem exec_ldst_stepped {s : State} (b : Block) (hroom : ∀ m, s.cfg.maxMsgBytes = some m → 16 ≤ m) :
    exec .ldst (s.accept b.toList) = .next (s.stepped (blockToState b) 1) := by
  have hfits : (s.accept b.toList).fits := fun m hm => by
    rw [State.accept_input, Vector.length_toList]
    exact hroom m hm
  obtain ⟨-, hldst⟩ := ldstCommand
  obtain ⟨hok, -⟩ := hldst (s.accept b.toList)
  exact hok b rfl hfits

theorem exec_rdst_stepped (s : State) (t : CipherState) (m : Nat) :
    exec .rdst ((s.stepped t m).accept []) =
      .next ((s.stepped t m).respond ⟨.ok, (stateToBlock t).toList, []⟩) := by
  obtain ⟨-, hrdst⟩ := rdstCommand
  obtain ⟨hok, -⟩ := hrdst ((s.stepped t m).accept [])
  exact hok t rfl rfl rfl

/-- A command that applies `f` to ST, as the next one of a stepping sequence. -/
theorem finish_transformStep_stepped {i : Instr} {s : State} (f : CipherState → CipherState) (hwf : i.wf s.cfg = true)
    (hform : payloadForm i = .exactly 0) (hstatus : wrongLengthStatus i = .invalidPayloadLength) (t : CipherState)
    (m : Nat) :
    ((s.stepped t m).accept []).finish (((s.stepped t m).accept []).transformStep i f) =
      .next (s.stepped (f t) (m + 1)) := by
  obtain ⟨hok, -⟩ := finish_transformStep (s := (s.stepped t m).accept []) f hwf hform hstatus
  rw [hok t rfl rfl rfl, stepped_writeStepState_respond]

theorem exec_addrk_stepped {s : State} {k : RoundKeys} (hrkv : s.rkv = true) (hrk : s.rk = some k) (r : Fin 15)
    (t : CipherState) (m : Nat) :
    exec (.addrk (BitVec.ofNat 4 r.val)) ((s.stepped t m).accept []) =
      .next (s.stepped (addRoundKey t k[r]) (m + 1)) := by
  obtain ⟨-, haddrk⟩ := addrkCommand
  obtain ⟨hlegal, -⟩ := haddrk ((s.stepped t m).accept [])
  obtain ⟨hok, -⟩ := hlegal r
  rw [← stepped_writeStepState_respond s t]
  exact hok k t rfl hrkv hrk rfl rfl

/-- With a key loaded, a transformation's command performs it on ST and answers OK. -/
theorem exec_command_stepped {s : State} {k : RoundKeys} (hrkv : s.rkv = true) (hrk : s.rk = some k) (f : Transform)
    (t : CipherState) (m : Nat) :
    exec f.command ((s.stepped t m).accept []) = .next (s.stepped (applyTransform k f t) (m + 1)) := by
  cases f with
  | addRoundKey r => exact exec_addrk_stepped hrkv hrk r t m
  | subBytes => exact finish_transformStep_stepped subBytes rfl rfl rfl t m
  | invSubBytes => exact finish_transformStep_stepped invSubBytes rfl rfl rfl t m
  | shiftRows => exact finish_transformStep_stepped shiftRows rfl rfl rfl t m
  | invShiftRows => exact finish_transformStep_stepped invShiftRows rfl rfl rfl t m
  | mixColumns => exact finish_transformStep_stepped mixColumns rfl rfl rfl t m
  | invMixColumns => exact finish_transformStep_stepped invMixColumns rfl rfl rfl t m

/-- The commands of a schedule make of ST what the orchestrator makes of its transient State. -/
theorem runCommands_schedule_append {s : State} {k : RoundKeys} (hrkv : s.rkv = true) (hrk : s.rk = some k)
    (fs : List Transform) (t : CipherState) (m : Nat) (rest : List (Instr × Payload)) :
    runCommands ((fs.map Transform.command).map (fun i => (i, [])) ++ rest) (s.stepped t m) =
      runCommands rest (s.stepped (runTransforms k fs t) (m + fs.length)) := by
  induction fs generalizing t m with
  | nil => rfl
  | cons f fs ih =>
    rw [List.map_cons, List.map_cons, List.cons_append,
      runCommands_cons_of_next (exec_command_stepped hrkv hrk f t m), ih, runTransforms_cons, List.length_cons]
    congr 2
    omega

/-- Loading a block and stepping it through a schedule. -/
theorem runCommands_ldst_schedule_append {s : State} {k : RoundKeys} (hrkv : s.rkv = true) (hrk : s.rk = some k)
    (hroom : ∀ m, s.cfg.maxMsgBytes = some m → 16 ≤ m) (fs : List Transform) (b : Block)
    (rest : List (Instr × Payload)) :
    runCommands ((.ldst, b.toList) :: ((fs.map Transform.command).map (fun i => (i, [])) ++ rest)) s =
      runCommands rest (s.stepped (runTransforms k fs (blockToState b)) (1 + fs.length)) := by
  rw [runCommands_cons_of_next (exec_ldst_stepped b hroom), runCommands_schedule_append hrkv hrk]

/-- Stepping a block through a schedule of 56 transformations and reading it back: the last State is the output, and
the States on the way are the entries of the trace. -/
theorem stepping_schedule {s : State} {k : RoundKeys} (hrkv : s.rkv = true) (hrk : s.rk = some k)
    (hroom : ∀ m, s.cfg.maxMsgBytes = some m → 16 ≤ m) {fs : List Transform} (hlen : fs.length = 56) (b : Block) :
    runCommands ((.ldst, b.toList) :: (fs.map Transform.command).map (fun i => (i, [])) ++ [(.rdst, [])]) s =
      .next { s with
        st := some (runTransforms k fs (blockToState b)), stv := true, input := []
        outbox := s.outbox ++ List.replicate 57 ⟨.ok, [], []⟩ ++
          [⟨.ok, (stateToBlock (runTransforms k fs (blockToState b))).toList, []⟩] } ∧
    ∀ n, n < 56 → ∃ t,
      runCommands ((.ldst, b.toList) :: ((fs.map Transform.command).take (n + 1)).map (fun i => (i, []))) s = .next t ∧
      t.st.map stateToBlock = (traceOf k fs b)[n]? := by
  refine ⟨?_, fun n hn => ?_⟩
  · rw [List.cons_append, runCommands_ldst_schedule_append hrkv hrk hroom, hlen,
      runCommands_cons_of_next (exec_rdst_stepped s _ _)]
    rfl
  · have hrun := runCommands_ldst_schedule_append hrkv hrk hroom (fs.take (n + 1)) b []
    rw [List.append_nil, List.map_take] at hrun
    exact ⟨_, hrun, (traceOf_getElem? k fs b (by omega)).symm⟩

/-- Settles O52: the stepping commands are the commands of the orchestrator's schedule. -/
theorem steppingMatchesOrchestrator : Obligations.SteppingMatchesOrchestrator := by
  intro s k b hrkv hrk hroom
  simp only [List.forall_mem_cons, steppingEncrypt_eq_commands, steppingDecrypt_eq_commands, encryptBlock, decryptBlock,
    blockToState_stateToBlock, encryptState_eq_runTransforms, decryptState_eq_runTransforms, encryptTrace_eq_traceOf,
    decryptTrace_eq_traceOf]
  exact ⟨stepping_schedule hrkv hrk hroom rfl b, stepping_schedule hrkv hrk hroom rfl b, List.forall_mem_nil _⟩

end Sys2Proof.Machine
end

section
/-! Padding and the ECB streams (46_ecb_stream.md R119 to R124, R129): pad and unpad, the blocks of a byte string, and
the block-wise functions both streams are. -/

namespace Sys2Proof.Machine

/-! ### pad and unpad (R119, R120) -/

@[simp] theorem length_padBytes (m : Payload) : (padBytes m).length = m.length + 16 - m.length % 16 := by
  rw [padBytes, List.length_append, List.length_replicate]
  omega

theorem length_padBytes_mod (m : Payload) : (padBytes m).length % 16 = 0 := by
  rw [length_padBytes]
  omega

/-- Settles O54: the number of bytes `padBytes` appends is `16 - len mod 16`. -/
theorem padAppendsItsLength : Obligations.PadAppendsItsLength := fun m =>
  ⟨16 - m.length % 16, by omega, by omega, rfl, rfl, length_padBytes_mod m⟩

/-- `n` bytes of value `n` at the end are a padding, and unpad takes them away. -/
theorem unpadBytes_append_replicate (m : Payload) {n : Nat} (hlow : 1 ≤ n) (hhigh : n ≤ 16) :
    unpadBytes (m ++ List.replicate n (BitVec.ofNat 8 n)) = some m := by
  have hlast : (m ++ List.replicate n (BitVec.ofNat 8 n)).getLast? = some (BitVec.ofNat 8 n) := by
    simp [List.getLast?_append, List.getLast?_replicate, show n ≠ 0 by omega]
  have hvalue : (BitVec.ofNat 8 n).toNat = n := by
    rw [BitVec.toNat_ofNat]
    omega
  have hrange : ¬(n = 0 ∨ 16 < n) := by omega
  simp [unpadBytes, hlast, hvalue, hrange]

/-- What unpad answers is what stands before the padding. -/
theorem eq_append_replicate_of_unpadBytes {p m : Payload} (h : unpadBytes p = some m) :
    ∃ n, 1 ≤ n ∧ n ≤ 16 ∧ p = m ++ List.replicate n (BitVec.ofNat 8 n) := by
  unfold unpadBytes at h
  split at h
  · cases h
  next last _ =>
    dsimp only at h
    split_ifs at h with hrange hshort hbad
    obtain rfl := Option.some.inj h
    have htail : p.drop (p.length - last.toNat) = List.replicate last.toNat last := by
      rw [List.eq_replicate_iff]
      refine ⟨by rw [List.length_drop]; omega, fun b hb => ?_⟩
      by_contra hne
      exact hbad (List.any_eq_true.mpr ⟨b, hb, bne_iff_ne.mpr hne⟩)
    refine ⟨last.toNat, by omega, by omega, ?_⟩
    rw [BitVec.ofNat_toNat, BitVec.setWidth_eq, ← htail, List.take_append_drop]

theorem unpadBytes_eq_some_iff (p m : Payload) :
    unpadBytes p = some m ↔ ∃ n, 1 ≤ n ∧ n ≤ 16 ∧ p = m ++ List.replicate n (BitVec.ofNat 8 n) := by
  refine ⟨eq_append_replicate_of_unpadBytes, ?_⟩
  rintro ⟨n, hlow, hhigh, rfl⟩
  exact unpadBytes_append_replicate m hlow hhigh

/-- Settles O55: unpad fails exactly where no answer is possible. -/
theorem unpadAcceptsExactlyPaddings : Obligations.UnpadAcceptsExactlyPaddings := by
  refine fun p => ⟨unpadBytes_eq_some_iff p, ?_⟩
  simp only [Option.eq_none_iff_forall_ne_some, ne_eq, unpadBytes_eq_some_iff, not_exists, not_and]

/-- pad is undone by unpad (R129 (b)). -/
@[simp] theorem unpadBytes_padBytes (m : Payload) : unpadBytes (padBytes m) = some m :=
  unpadBytes_append_replicate m (by omega) (by omega)

/-- An aligned sequence gets one full block of padding. -/
theorem padBytes_of_aligned {m : Payload} (hm : m.length % 16 = 0) : padBytes m = m ++ List.replicate 16 0x10 := by
  rw [padBytes, hm]
  rfl

/-! ### The blocks of a byte string (R121) -/

@[simp] theorem length_blocksOf (x : Payload) : (blocksOf x).length = x.length / 16 := by simp [blocksOf]

/-- The first block of a byte string is its first 16 bytes. -/
theorem toList_blockOfBytes {x : Payload} (hx : 16 ≤ x.length) : (blockOfBytes x).toList = x.take 16 := by
  apply List.ext_getElem
  · rw [Vector.length_toList, List.length_take]
    omega
  · intro i hi _
    have hi : i < x.length := by
      rw [Vector.length_toList] at hi
      omega
    simp [blockOfBytes, hi]

theorem blockOfBytes_toList_append (b : Block) (x : Payload) : blockOfBytes (b.toList ++ x) = b := by
  apply Vector.toList_inj.mp
  rw [toList_blockOfBytes (by simp), List.take_left' b.length_toList]

theorem blocksOf_toList_append (b : Block) (x : Payload) : blocksOf (b.toList ++ x) = b :: blocksOf x := by
  have hcount : (b.toList ++ x).length / 16 = x.length / 16 + 1 := by
    rw [List.length_append, Vector.length_toList]
    omega
  have hdrop (k : Nat) : (b.toList ++ x).drop (16 * (k + 1)) = x.drop (16 * k) := by
    rw [Nat.mul_succ, Nat.add_comm, ← List.drop_drop, List.drop_left' b.length_toList]
  rw [blocksOf, hcount, List.range_succ_eq_map, List.map_cons, List.map_map, Nat.mul_zero, List.drop_zero,
    blockOfBytes_toList_append]
  simp only [Function.comp_def, Nat.succ_eq_add_one, hdrop]
  rfl

/-- The blocks of blocks laid one after the other. -/
@[simp] theorem blocksOf_flatMap_toList (bs : List Block) : blocksOf (bs.flatMap Vector.toList) = bs := by
  induction bs with
  | nil => rfl
  | cons b bs ih => rw [List.flatMap_cons, blocksOf_toList_append, ih]

/-- A byte string of whole blocks is its blocks laid one after the other. -/
theorem flatMap_toList_blocksOf {x : Payload} (hx : x.length % 16 = 0) : (blocksOf x).flatMap Vector.toList = x := by
  induction hk : x.length / 16 generalizing x with
  | zero =>
    have hnil : x = [] := List.eq_nil_of_length_eq_zero (by omega)
    rw [hnil]
    rfl
  | succ k ih =>
    have hsplit : x = (blockOfBytes x).toList ++ x.drop 16 := by
      rw [toList_blockOfBytes (by omega), List.take_append_drop]
    have hrest := ih (x := x.drop 16) (by rw [List.length_drop]; omega) (by rw [List.length_drop]; omega)
    rw [hsplit, blocksOf_toList_append, List.flatMap_cons, hrest]

/-! ### Streams (R122 to R124) -/

/-- A function of blocks applied to each block of a byte string. -/
def mapBlocks (f : Block → Block) (x : Payload) : Payload := (blocksOf x).flatMap fun b => (f b).toList

theorem encryptStream_eq_mapBlocks (m : Payload) (rk : RoundKeys) :
    encryptStream m rk = mapBlocks (fun b => encryptBlock b rk) (padBytes m) := rfl

theorem decryptBlocks_eq_mapBlocks (c : Payload) (rk : RoundKeys) :
    decryptBlocks c rk = mapBlocks (fun b => decryptBlock b rk) c := rfl

theorem mapBlocks_eq_flatMap_map (f : Block → Block) (x : Payload) :
    mapBlocks f x = ((blocksOf x).map f).flatMap Vector.toList :=
  (List.flatMap_map f Vector.toList (blocksOf x)).symm

@[simp] theorem length_mapBlocks (f : Block → Block) (x : Payload) : (mapBlocks f x).length = x.length / 16 * 16 := by
  simp [mapBlocks, List.length_flatMap]

@[simp] theorem blocksOf_mapBlocks (f : Block → Block) (x : Payload) :
    blocksOf (mapBlocks f x) = (blocksOf x).map f := by
  rw [mapBlocks_eq_flatMap_map, blocksOf_flatMap_toList]

theorem mapBlocks_mapBlocks_of_leftInverse {f g : Block → Block} (hgf : Function.LeftInverse g f) {x : Payload}
    (hx : x.length % 16 = 0) : mapBlocks g (mapBlocks f x) = x := by
  rw [mapBlocks_eq_flatMap_map, blocksOf_mapBlocks, List.map_map, hgf.id, List.map_id, flatMap_toList_blocksOf hx]

@[simp] theorem length_encryptStream (m : Payload) (rk : RoundKeys) :
    (encryptStream m rk).length = m.length + 16 - m.length % 16 := by
  rw [encryptStream_eq_mapBlocks, length_mapBlocks, length_padBytes]
  omega

theorem length_encryptStream_ne_zero (m : Payload) (rk : RoundKeys) : (encryptStream m rk).length ≠ 0 := by
  rw [length_encryptStream]
  omega

theorem length_encryptStream_mod (m : Payload) (rk : RoundKeys) : (encryptStream m rk).length % 16 = 0 := by
  rw [length_encryptStream]
  omega

theorem blocksOf_encryptStream (m : Payload) (rk : RoundKeys) :
    blocksOf (encryptStream m rk) = (blocksOf (padBytes m)).map fun b => encryptBlock b rk :=
  blocksOf_mapBlocks _ (padBytes m)

/-- Settles O56: both streams map a function of blocks over the blocks of their input. -/
theorem streamBlocksAreIndependent : Obligations.StreamBlocksAreIndependent := by
  refine fun m c rk => ⟨length_encryptStream m rk, blocksOf_encryptStream m rk, blocksOf_mapBlocks _ c,
    fun j k h => ?_⟩
  rw [blocksOf_encryptStream, List.getElem?_map, List.getElem?_map, h]

theorem decryptBlock_leftInverse_encryptBlock (rk : RoundKeys) :
    Function.LeftInverse (fun b => decryptBlock b rk) (fun b => encryptBlock b rk) := fun b => by
  obtain ⟨hdecrypt, -⟩ := blockCipherRoundTrip b rk
  exact hdecrypt

@[simp] theorem decryptBlocks_encryptStream (m : Payload) (rk : RoundKeys) :
    decryptBlocks (encryptStream m rk) rk = padBytes m :=
  mapBlocks_mapBlocks_of_leftInverse (decryptBlock_leftInverse_encryptBlock rk) (length_padBytes_mod m)

/-- With whole blocks, decryptStream answers unpad of the decrypted blocks, or fails as unpad does (R123). -/
theorem decryptStream_of_aligned {c : Payload} (hpos : c.length ≠ 0) (halign : c.length % 16 = 0) (rk : RoundKeys) :
    decryptStream c rk = (unpadBytes (decryptBlocks c rk)).elim (.error .invalidPadding) .ok := by
  have hlen : ¬(c.length = 0 ∨ c.length % 16 ≠ 0) := by omega
  rw [decryptStream, if_neg hlen]
  cases unpadBytes (decryptBlocks c rk) <;> rfl

/-- decryptStream undoes encryptStream (R129 (a)). -/
@[simp] theorem decryptStream_encryptStream (m : Payload) (rk : RoundKeys) :
    decryptStream (encryptStream m rk) rk = .ok m := by
  rw [decryptStream_of_aligned (length_encryptStream_ne_zero m rk) (length_encryptStream_mod m rk),
    decryptBlocks_encryptStream, unpadBytes_padBytes]
  rfl

/-- Under any key, decrypting a stream fails with INVALID_PADDING or answers a sequence (R129 (c)). -/
theorem decryptStream_encryptStream_cases (m : Payload) (k l : RoundKeys) :
    decryptStream (encryptStream m k) l = .error .invalidPadding ∨
      ∃ p, decryptStream (encryptStream m k) l = .ok p := by
  rw [decryptStream_of_aligned (length_encryptStream_ne_zero m k) (length_encryptStream_mod m k)]
  cases unpadBytes (decryptBlocks (encryptStream m k) l) with
  | none => exact .inl rfl
  | some p => exact .inr ⟨p, rfl⟩

end Sys2Proof.Machine
end

section
/-! The commands of the ECB unit (46_ecb_stream.md R125 to R129). -/

namespace Sys2Proof.Machine

/-- A payload within the bound passes the checks of a legal command that takes any number of bytes. -/
theorem takePayload_anyLength_ok {i : Instr} {s : State} (hwf : i.wf s.cfg = true)
    (hform : payloadForm i = .anyLength) (hfits : s.fits) : takePayload i s = .ok s.input :=
  takePayload_ok hwf hfits (by rw [hform]; rfl)

/-- Settles O58: PAD and UNPAD pass their payload check, then answer their function or INVALID_PADDING. -/
theorem padUnpadCommands : Obligations.PadUnpadCommands := by
  refine ⟨fun _ => ⟨rfl, rfl⟩, fun s => ⟨fun hfits => ?_, fun m hfits hm => ?_, fun hfits hbad => ?_, fun hfits => ?_⟩⟩
  · have hp : takePayload .pad s = .ok s.input := takePayload_anyLength_ok rfl rfl hfits
    simp [exec, execPad, hp]
  · have hp : takePayload .unpad s = .ok s.input := takePayload_anyLength_ok rfl rfl hfits
    simp [exec, execUnpad, hp, hm]
  · have hp : takePayload .unpad s = .ok s.input := takePayload_anyLength_ok rfl rfl hfits
    simp [exec, execUnpad, hp, hbad]
  · have hpad : takePayload .pad s = .error .invalidPayloadLength := takePayload_not_fits rfl hfits
    have hunpad : takePayload .unpad s = .error .invalidPayloadLength := takePayload_not_fits rfl hfits
    simp [exec, execPad, execUnpad, hpad, hunpad]

/-- Settles O59: ECBE passes its payload check, then reads RK or raises NO_KEY. -/
theorem ecbeCommand : Obligations.EcbeCommand := by
  refine ⟨fun _ => rfl, fun s => ⟨fun k hfits hrkv hrk => ?_, fun hfits hrkv => ?_, fun hfits => ?_⟩⟩
  · have hp : takePayload .ecbe s = .ok s.input := takePayload_anyLength_ok rfl rfl hfits
    simp [exec, execEcbe, hp, (readKeys_eq_ok_iff ..).mpr ⟨hrkv, hrk⟩]
  · have hp : takePayload .ecbe s = .ok s.input := takePayload_anyLength_ok rfl rfl hfits
    simp [exec, execEcbe, hp, readKeys_noKey hrkv]
  · have hp : takePayload .ecbe s = .error .invalidPayloadLength := takePayload_not_fits rfl hfits
    simp [exec, execEcbe, hp]

/-- A payload of whole blocks within the bound passes the checks of ECBD. -/
theorem takePayload_ecbd_ok {s : State} (hfits : s.fits) (hpos : s.input.length ≠ 0)
    (halign : s.input.length % 16 = 0) : takePayload .ecbd s = .ok s.input :=
  takePayload_ok rfl hfits (by simpa [payloadForm, PayloadForm.accepts, halign] using hpos)

/-- ECBD refuses a payload within the bound that is not one or more whole blocks. -/
theorem takePayload_ecbd_error {s : State} (hfits : s.fits) (hlen : s.input.length = 0 ∨ s.input.length % 16 ≠ 0) :
    takePayload .ecbd s = .error .invalidBlockLength := by
  have hrefused : (payloadForm .ecbd).accepts s.input.length = false := by
    simp only [payloadForm, PayloadForm.accepts, Bool.and_eq_false_iff, decide_eq_false_iff_not]
    omega
  exact (takePayload_eq_error_iff ..).mpr (.inr (.inr ⟨rfl, hfits, hrefused, rfl⟩))

/-- ECBD with whole blocks and a key answers what decryptStream does. -/
theorem exec_ecbd_of_key {s : State} {k : RoundKeys} (hfits : s.fits) (hpos : s.input.length ≠ 0)
    (halign : s.input.length % 16 = 0) (hrkv : s.rkv = true) (hrk : s.rk = some k) :
    exec .ecbd s = s.finish ((decryptStream s.input k).map fun m => ⟨s, m, []⟩) := by
  simp only [exec, execEcbd, takePayload_ecbd_ok hfits hpos halign, (readKeys_eq_ok_iff ..).mpr ⟨hrkv, hrk⟩,
    except_ok_bind]
  cases decryptStream s.input k <;> rfl

/-- Settles O60: the payload check, then NO_KEY, then unpad of the decrypted blocks or INVALID_PADDING. -/
theorem ecbdCommand : Obligations.EcbdCommand := by
  refine ⟨fun _ => rfl, fun s => ⟨fun k m hfits hpos halign hrkv hrk hm => ?_,
    fun k hfits hpos halign hrkv hrk hbad => ?_, fun hfits hpos halign hrkv => ?_, fun hfits hlen => ?_,
    fun hfits => ?_⟩⟩
  · rw [exec_ecbd_of_key hfits hpos halign hrkv hrk, decryptStream_of_aligned hpos halign, hm]
    rfl
  · rw [exec_ecbd_of_key hfits hpos halign hrkv hrk, decryptStream_of_aligned hpos halign, hbad]
    rfl
  · simp [exec, execEcbd, takePayload_ecbd_ok hfits hpos halign, readKeys_noKey hrkv]
  · simp [exec, execEcbd, takePayload_ecbd_error hfits hlen]
  · have hp : takePayload .ecbd s = .error .invalidPayloadLength := takePayload_not_fits rfl hfits
    simp [exec, execEcbd, hp]

/-- ECBE of a message and ECBD of its output answer the stream and the message, and change no register. -/
theorem runCommands_ecbe_ecbd {s : State} {k : RoundKeys} {m : Payload} (hrkv : s.rkv = true) (hrk : s.rk = some k)
    (hroom : ∀ x, s.cfg.maxMsgBytes = some x → m.length + 16 ≤ x) :
    runCommands [(.ecbe, m), (.ecbd, encryptStream m k)] s
      = .next { s with input := [], outbox := s.outbox ++ [⟨.ok, encryptStream m k, []⟩, ⟨.ok, m, []⟩] } := by
  have hfits : (s.accept m).fits := fun x hx => (Nat.le_add_right ..).trans (hroom x hx)
  have hencrypt : exec .ecbe (s.accept m) = .next ((s.accept m).respond ⟨.ok, encryptStream m k, []⟩) := by
    obtain ⟨-, hecbe⟩ := ecbeCommand
    obtain ⟨hok, -⟩ := hecbe (s.accept m)
    exact hok k hfits hrkv hrk
  rw [runCommands_cons_of_next hencrypt]
  have hfitsStream : (((s.accept m).respond ⟨.ok, encryptStream m k, []⟩).accept (encryptStream m k)).fits := by
    intro x hx
    have hbound := hroom x hx
    rw [State.accept_input, length_encryptStream]
    omega
  have hdecrypt := exec_ecbd_of_key hfitsStream (length_encryptStream_ne_zero m k) (length_encryptStream_mod m k)
    hrkv hrk
  rw [State.accept_input, decryptStream_encryptStream] at hdecrypt
  rw [runCommands_cons_of_next hdecrypt]
  simp [runCommands, State.respond, State.accept]

/-- Settles O57: block decryption undoes block encryption and unpad undoes pad, so decryptStream undoes
encryptStream. -/
theorem streamRoundTrip : Obligations.StreamRoundTrip :=
  ⟨fun _ k m hrkv hrk hroom => ⟨decryptStream_encryptStream m k, runCommands_ecbe_ecbd hrkv hrk hroom⟩,
    fun m => ⟨unpadBytes_padBytes m, padBytes_of_aligned⟩, decryptStream_encryptStream_cases⟩

end Sys2Proof.Machine
end

section
/-! The end of a command (60_exceptions.md R130 to R133): its one response, what a failed command leaves unchanged, and
the order of the checks its status follows. -/

namespace Sys2Proof.Machine

open Sys2Proof.Claims

/-! ### One response (R130 to R132) -/

/-- The codes 8 to 255 are never returned (R131). -/
theorem Status.code_toNat_le (e : Status) : e.code.toNat ≤ 7 := by
  cases e <;> decide

/-- A command begun in `s` and ended in `t` delivered the one response `a`; if it failed, the status is all of its
effect (R132). -/
structure EndsCommand (s : State) (a : Response) (t : State) : Prop where
  outbox : t.outbox = s.outbox ++ [a]
  inbox : t.inbox = s.inbox
  cfg : t.cfg = s.cfg
  failed : a.status ≠ .ok →
    a.out = [] ∧ a.trace = [] ∧ t.rk = s.rk ∧ t.rkv = s.rkv ∧ t.st = s.st ∧ t.stv = s.stv

theorem raise_endsCommand (s : State) (e : Status) : EndsCommand s ⟨e, [], []⟩ (s.raise e) :=
  ⟨rfl, rfl, rfl, fun _ => ⟨rfl, rfl, rfl, rfl, rfl, rfl⟩⟩

theorem CommandEffect.endsCommand {i : Instr} {s : State} {c : Completion} (h : CommandEffect i s c) :
    EndsCommand s ⟨.ok, c.out, c.trace⟩ (c.state.respond ⟨.ok, c.out, c.trace⟩) := by
  obtain ⟨hcfg, hinbox, houtbox⟩ := h.host_unchanged
  exact ⟨by simp [houtbox], hinbox, hcfg, fun hfailed => absurd rfl hfailed⟩

theorem exec_endsCommand (i : Instr) (s : State) : ∃ a t, exec i s = .next t ∧ EndsCommand s a t := by
  obtain ⟨e, he⟩ | ⟨c, heffect, hc⟩ := exec_cases i s
  · exact ⟨_, _, he, raise_endsCommand s e⟩
  · exact ⟨_, _, hc, heffect.endsCommand⟩

/-- A command whose word decodes is performed with its payload (R45). -/
theorem step_of_decode_ok {s : State} {r : Request} {rest : List HostEvent} {i : Instr}
    (hin : s.inbox = .command r :: rest) (hdec : decode s.cfg r.word = .ok i) :
    step s = exec i (({ s with inbox := rest } : State).accept r.payload) := by
  have hnext : s.nextEvent = some (.command r, { s with inbox := rest }) :=
    (nextEvent_eq_some_iff ..).mpr ⟨rest, hin, rfl⟩
  simp only [step, hnext, hdec]

/-- Serving a command, legal or illegal, ends it with one response. -/
theorem step_endsCommand {s : State} {r : Request} {rest : List HostEvent} (hin : s.inbox = .command r :: rest) :
    ∃ a t, step s = .next t ∧ EndsCommand (({ s with inbox := rest } : State).accept r.payload) a t := by
  cases hdec : decode s.cfg r.word with
  | ok i =>
    rw [step_of_decode_ok hin hdec]
    exact exec_endsCommand i _
  | error e => exact ⟨_, _, step_of_decode_error hin hdec, raise_endsCommand _ _⟩

/-- Settles O11: an illegal word raises a status, and a legal command raises one or completes. -/
theorem failedCommandChangesNothing : Obligations.FailedCommandChangesNothing := by
  intro s r rest hin
  obtain ⟨a, t, hstep, hend⟩ := step_endsCommand hin
  exact ⟨a, t, hstep, hend.outbox, hend.inbox, hend.cfg, a.status.code_toNat_le, hend.failed⟩

/-! ### The order of the checks (R133)

The rest of the order after each check is a predicate on the status, so each check has one rule, and the proof for a
command follows the checks of its meaning. -/

/-- The status of a command whose checks but the padding check have passed. -/
def StatusFromPadding (i : Instr) (s : State) (e : Status) : Prop :=
  (paddingFails i s → e = .invalidPadding) ∧ (¬paddingFails i s → e = .ok)

/-- The status of a command whose checks before NO_STATE have passed. -/
def StatusFromStepState (i : Instr) (s : State) (e : Status) : Prop :=
  (readsStepState i = true → s.stv = false → e = .noState) ∧
  ((readsStepState i = false ∨ s.stv = true) → StatusFromPadding i s e)

/-- The status of a command whose word and payload have passed their checks. -/
def StatusFromKeys (i : Instr) (s : State) (e : Status) : Prop :=
  (readsKeys i = true → s.rkv = false → e = .noKey) ∧
  ((readsKeys i = false ∨ s.rkv = true) → StatusFromStepState i s e)

theorem statusByPrecedence_iff (i : Instr) (s : State) (e : Status) :
    StatusByPrecedence i s e ↔
      (i.wf s.cfg = false → e = .illegalCommand) ∧
      (i.wf s.cfg = true → ¬s.fits → e = .invalidPayloadLength) ∧
      (i.wf s.cfg = true → s.fits → (payloadForm i).accepts s.input.length = false → e = wrongLengthStatus i) ∧
      (i.wf s.cfg = true → s.fits → (payloadForm i).accepts s.input.length = true → StatusFromKeys i s e) := Iff.rfl

/-- The status with which `finish` ends a command. -/
def answerStatus : Except Status Completion → Status
  | .ok _ => .ok
  | .error e => e

@[simp] theorem answerStatus_ok (c : Completion) : answerStatus (.ok c) = .ok := rfl

@[simp] theorem answerStatus_error (e : Status) : answerStatus (.error e) = e := rfl

theorem status_of_finish_eq_next {s t : State} {x : Except Status Completion} {a : Response} {l : List Response}
    (hfinish : s.finish x = .next t) (hout : t.outbox = l ++ [a]) : a.status = answerStatus x := by
  cases x with
  | ok c =>
    cases hfinish
    obtain ⟨-, rfl⟩ := List.append_singleton_inj.mp hout
    rfl
  | error e =>
    cases hfinish
    obtain ⟨-, rfl⟩ := List.append_singleton_inj.mp hout
    rfl

section
variable {i : Instr} {s : State}

/-- The checks of the word and the payload give the status, or the checks after them do. -/
theorem takePayload_bind_status {f : Payload → Except Status Completion}
    (hrest : ∀ p, takePayload i s = .ok p → StatusFromKeys i s (answerStatus (f p))) :
    StatusByPrecedence i s (answerStatus (takePayload i s >>= f)) := by
  rw [statusByPrecedence_iff]
  cases hp : takePayload i s with
  | error e =>
    rw [except_error_bind, answerStatus_error]
    obtain ⟨hwf, rfl⟩ | ⟨hwf, hfits, rfl⟩ | ⟨hwf, hfits, hlen, rfl⟩ := (takePayload_eq_error_iff ..).mp hp
    · simp [hwf]
    · simp [hwf, hfits]
    · simp [hwf, hfits, hlen]
  | ok p =>
    obtain ⟨hwf, hfits, hlen, -⟩ := (takePayload_eq_ok_iff ..).mp hp
    simpa [hwf, hfits, hlen] using hrest p hp

/-- A command that reads RK ends with NO_KEY, or the checks after that give the status. -/
theorem readKeys_bind_status (hv : RegistersValid s) (hreads : readsKeys i = true)
    {f : RoundKeys → Except Status Completion}
    (hrest : ∀ k, s.rk = some k → StatusFromStepState i s (answerStatus (f k))) :
    StatusFromKeys i s (answerStatus (s.readKeys >>= f)) := by
  cases hk : s.readKeys with
  | error e =>
    obtain ⟨habsent, rfl⟩ := (readKeys_eq_error_iff ..).mp hk
    have hrkv : s.rkv = false := habsent.elim id fun hrk => by simp [hv.rkv_iff, hrk]
    simp [StatusFromKeys, hreads, hrkv]
  | ok k =>
    obtain ⟨hrkv, hrk⟩ := (readKeys_eq_ok_iff ..).mp hk
    simpa [StatusFromKeys, hrkv] using hrest k hrk

/-- A command that does not read RK has no NO_KEY check. -/
theorem statusFromKeys_of_not_reads {e : Status} (hreads : readsKeys i = false) (hrest : StatusFromStepState i s e) :
    StatusFromKeys i s e :=
  ⟨by simp [hreads], fun _ => hrest⟩

/-- A command that reads ST ends with NO_STATE, or the checks after that give the status. -/
theorem readStepState_bind_status (hv : RegistersValid s) (hreads : readsStepState i = true)
    {f : CipherState → Except Status Completion}
    (hrest : ∀ t, StatusFromPadding i s (answerStatus (f t))) :
    StatusFromStepState i s (answerStatus (s.readStepState >>= f)) := by
  cases ht : s.readStepState with
  | error e =>
    obtain ⟨habsent, rfl⟩ := (readStepState_eq_error_iff ..).mp ht
    have hstv : s.stv = false := habsent.elim id fun hst => by simp [hv.stv_iff, hst]
    simp [StatusFromStepState, hreads, hstv]
  | ok t =>
    obtain ⟨hstv, -⟩ := (readStepState_eq_ok_iff ..).mp ht
    simpa [StatusFromStepState, hstv] using hrest t

/-- A command that does not read ST has no NO_STATE check. -/
theorem statusFromStepState_of_not_reads {e : Status} (hreads : readsStepState i = false)
    (hrest : StatusFromPadding i s e) : StatusFromStepState i s e :=
  ⟨by simp [hreads], fun _ => hrest⟩

/-- A command other than UNPAD and ECBD has no padding check. -/
theorem statusFromPadding_ok (hunpad : i ≠ .unpad) (hecbd : i ≠ .ecbd) : StatusFromPadding i s .ok :=
  ⟨fun hfails => by simp [paddingFails, hunpad, hecbd] at hfails, fun _ => rfl⟩

/-- The status of unpad, where unpad of `p` is the command's padding check. -/
theorem unpadBytes_elim_status {p : Payload} (hfails : paddingFails i s ↔ unpadBytes p = none)
    (g : Payload → Completion) :
    StatusFromPadding i s
      (answerStatus ((unpadBytes p).elim (.error .invalidPadding) fun m => .ok (g m))) := by
  unfold StatusFromPadding
  rw [hfails]
  cases unpadBytes p <;> simp

/-! ### The four forms of a meaning -/

/-- A command that checks its word and payload only. -/
theorem payloadCommand_status (hkeys : readsKeys i = false) (hst : readsStepState i = false) (hunpad : i ≠ .unpad)
    (hecbd : i ≠ .ecbd) (g : Payload → Completion) :
    StatusByPrecedence i s (answerStatus (takePayload i s >>= fun p => .ok (g p))) :=
  takePayload_bind_status fun _ _ => statusFromKeys_of_not_reads hkeys
    (statusFromStepState_of_not_reads hst (statusFromPadding_ok hunpad hecbd))

/-- A command that reads RK after its payload. -/
theorem keyCommand_status (hv : RegistersValid s) (hkeys : readsKeys i = true) (hst : readsStepState i = false)
    (hunpad : i ≠ .unpad) (hecbd : i ≠ .ecbd) (g : Payload → RoundKeys → Completion) :
    StatusByPrecedence i s (answerStatus (takePayload i s >>= fun p => s.readKeys >>= fun k => .ok (g p k))) :=
  takePayload_bind_status fun _ _ => readKeys_bind_status hv hkeys fun _ _ =>
    statusFromStepState_of_not_reads hst (statusFromPadding_ok hunpad hecbd)

/-- A command that reads ST after its payload. -/
theorem stepStateCommand_status (hv : RegistersValid s) (hkeys : readsKeys i = false) (hst : readsStepState i = true)
    (hunpad : i ≠ .unpad) (hecbd : i ≠ .ecbd) (g : CipherState → Completion) :
    StatusByPrecedence i s (answerStatus (takePayload i s >>= fun _ => s.readStepState >>= fun t => .ok (g t))) :=
  takePayload_bind_status fun _ _ => statusFromKeys_of_not_reads hkeys
    (readStepState_bind_status hv hst fun _ => statusFromPadding_ok hunpad hecbd)

end

/-! ### The commands -/

theorem paddingFails_unpad_iff (s : State) : paddingFails .unpad s ↔ unpadBytes s.input = none := by
  simp [paddingFails]

theorem paddingFails_ecbd_iff {s : State} {k : RoundKeys} (hrk : s.rk = some k) :
    paddingFails .ecbd s ↔ unpadBytes (decryptBlocks s.input k) = none := by
  simp [paddingFails, hrk]

/-- UNPAD, after its payload, answers unpad or INVALID_PADDING. -/
theorem execUnpad_status (s : State) :
    ∃ x, exec .unpad s = s.finish x ∧ StatusByPrecedence .unpad s (answerStatus x) := by
  refine ⟨_, rfl, takePayload_bind_status fun p hp => statusFromKeys_of_not_reads rfl
    (statusFromStepState_of_not_reads rfl ?_)⟩
  obtain ⟨-, -, -, rfl⟩ := (takePayload_eq_ok_iff ..).mp hp
  have hstatus := unpadBytes_elim_status (paddingFails_unpad_iff s) fun m => ⟨s, m, []⟩
  cases hm : unpadBytes s.input <;> simpa [hm] using hstatus

/-- ECBD, after its payload and RK, answers unpad of the decrypted blocks or INVALID_PADDING. -/
theorem execEcbd_status {s : State} (hv : RegistersValid s) :
    ∃ x, exec .ecbd s = s.finish x ∧ StatusByPrecedence .ecbd s (answerStatus x) := by
  refine ⟨_, rfl, takePayload_bind_status fun p hp => readKeys_bind_status hv rfl fun k hrk =>
    statusFromStepState_of_not_reads rfl ?_⟩
  obtain ⟨-, -, hlen, rfl⟩ := (takePayload_eq_ok_iff ..).mp hp
  obtain ⟨hpos, halign⟩ : s.input.length ≠ 0 ∧ s.input.length % 16 = 0 := by
    simpa [payloadForm, PayloadForm.accepts] using hlen
  rw [decryptStream_of_aligned hpos halign]
  have hstatus := unpadBytes_elim_status (paddingFails_ecbd_iff hrk) fun m => ⟨s, m, []⟩
  cases hm : unpadBytes (decryptBlocks s.input k) <;> simpa [hm] using hstatus

/-- Every command makes its checks in the order of R133. -/
theorem exec_status (i : Instr) {s : State} (hv : RegistersValid s) :
    ∃ x, exec i s = s.finish x ∧ StatusByPrecedence i s (answerStatus x) := by
  cases i
  case unpad => exact execUnpad_status s
  case ecbd => exact execEcbd_status hv
  case addrk idx =>
    exact ⟨_, rfl, takePayload_bind_status fun _ _ => readKeys_bind_status hv rfl fun _ _ =>
      readStepState_bind_status hv rfl fun _ => statusFromPadding_ok (by simp) (by simp)⟩
  case rdrk | encb | decb | ecbe => exact ⟨_, rfl, keyCommand_status hv rfl rfl (by simp) (by simp) _⟩
  case rdst | subb | isubb | shr | ishr | mixc | imixc =>
    exact ⟨_, rfl, stepStateCommand_status hv rfl rfl (by simp) (by simp) _⟩
  all_goals exact ⟨_, rfl, payloadCommand_status rfl rfl (by simp) (by simp) _⟩

/-- Settles O13: the one response of a command carries the status of the answer it finishes with, and that answer
follows the checks. -/
theorem statusFollowsPrecedence : Obligations.StatusFollowsPrecedence := by
  intro i s hv
  obtain ⟨a, t, hexec, hend⟩ := exec_endsCommand i s
  obtain ⟨x, hx, hstatus⟩ := exec_status i hv
  have ha : a.status = answerStatus x := status_of_finish_eq_next (hx ▸ hexec) hend.outbox
  exact ⟨a, t, hexec, hend.outbox, ha ▸ hstatus⟩

end Sys2Proof.Machine
end

section
/-! Words and lines (30_encoding.md R50, R51, R57 to R59): decode and encode undo each other on legal commands. -/

namespace Sys2Proof

open Sys2Proof.Machine

/-- Settles O1: a command's own word passes its form, so the decode check alone decides. -/
theorem decodeOfEncodeIsIdentity : Obligations.DecodeOfEncodeIsIdentity := fun _ _ => decode_encode_of_wf

/-- Settles O2: the decoded command has the word's OPC, IDX and TR, RSV is 0 in both words, and the four fields
determine a word. -/
theorem encodeOfDecodeIsIdentity : Obligations.EncodeOfDecodeIsIdentity := by
  intro c w j hdec
  obtain ⟨hrsv, i, hopc, hfill⟩ := (decode_eq_ok_iff c w j).mp hdec
  obtain ⟨hopcode, hindex, htrace, hwf⟩ := fillForm_eq_ok hfill
  refine ⟨word_eq_of_fields_eq ?_, hwf⟩
  rw [wordFields_encode, hopcode, hopc, hindex, htrace, ← hrsv]

/-- Settles O4: the decoder run on each word. -/
theorem specWordsDecode : Obligations.SpecWordsDecode :=
  ⟨rfl, rfl, rfl, rfl, rfl, rfl, rfl, rfl, rfl, rfl, rfl, rfl, rfl⟩

/-- Settles O5: the assembler run on each line. -/
theorem assemblerLinesGiveSpecWords : Obligations.AssemblerLinesGiveSpecWords := by
  unfold Obligations.AssemblerLinesGiveSpecWords
  decide

end Sys2Proof
end

section
/-! One step (30_encoding.md R45, 70_reset_and_hazards.md R149 to R152): what it does for each event of the host, said
once, and the invariants it keeps. -/

namespace Sys2Proof.Machine

/-! ### The step for each event -/

/-- With no event left the core waits. -/
theorem step_of_idle {s : State} (hin : s.inbox = []) : step s = .next s := by
  simp only [step, (nextEvent_eq_none_iff s).mpr hin]

/-- A reset, raised between two commands or during one, is `State.resetEvent`. -/
theorem step_of_reset {s : State} {e : HostEvent} {rest : List HostEvent} (hin : s.inbox = e :: rest)
    (he : e = .reset ∨ ∃ r, e = .resetDuring r) :
    step s = .next ({ s with inbox := rest } : State).resetEvent := by
  have hnext : s.nextEvent = some (e, { s with inbox := rest }) := (nextEvent_eq_some_iff ..).mpr ⟨rest, hin, rfl⟩
  obtain rfl | ⟨r, rfl⟩ := he <;> simp only [step, hnext]

/-- Settles O6: `State.accept` puts the payload into the state that `exec` receives. -/
theorem stepRunsDecodedCommand : Obligations.StepRunsDecodedCommand := fun _ _ _ _ => step_of_decode_ok

/-- Settles O7: `step` answers its own state when there is no next event. -/
theorem idleCoreHoldsState : Obligations.IdleCoreHoldsState := fun _ => step_of_idle

/-- Settles O8: `State.resetEvent` on the rest of the stream is the state the statement writes out. -/
theorem resetEventClearsRegisters : Obligations.ResetEventClearsRegisters := fun _ _ _ => step_of_reset

/-- Settles O12: the table of the codes. -/
theorem statusCodeValues : Obligations.StatusCodeValues := ⟨rfl, rfl, rfl, rfl, rfl, rfl, rfl, rfl⟩

/-- What a step from `s` can lead to: the core waits, is reset, fails a command, or completes one. -/
inductive StepEffect (s : State) : State → Prop
  | idle : StepEffect s s
  | reset (rest : List HostEvent) : StepEffect s ({ s with inbox := rest } : State).resetEvent
  | failed (rest : List HostEvent) (p : Payload) (e : Status) :
      StepEffect s ((({ s with inbox := rest } : State).accept p).raise e)
  | completed (rest : List HostEvent) (p : Payload) {i : Instr} {c : Completion}
      (h : CommandEffect i (({ s with inbox := rest } : State).accept p) c) :
      StepEffect s (c.state.respond ⟨.ok, c.out, c.trace⟩)

theorem exists_step_effect (s : State) : ∃ t, step s = .next t ∧ StepEffect s t := by
  cases hin : s.inbox with
  | nil => exact ⟨s, step_of_idle hin, .idle⟩
  | cons e rest =>
    cases e with
    | reset => exact ⟨_, step_of_reset hin (.inl rfl), .reset rest⟩
    | resetDuring r => exact ⟨_, step_of_reset hin (.inr ⟨r, rfl⟩), .reset rest⟩
    | command r =>
      cases hdec : decode s.cfg r.word with
      | error e => exact ⟨_, step_of_decode_error hin hdec, .failed rest r.payload .illegalCommand⟩
      | ok i =>
        rw [step_of_decode_ok hin hdec]
        obtain ⟨e, he⟩ | ⟨c, heffect, hc⟩ := exec_cases i (({ s with inbox := rest } : State).accept r.payload)
        · exact ⟨_, he, .failed rest r.payload e⟩
        · exact ⟨_, hc, .completed rest r.payload heffect⟩

theorem stepEffect_of_next {s t : State} (h : step s = .next t) : StepEffect s t := by
  obtain ⟨u, hu, heffect⟩ := exists_step_effect s
  obtain rfl : u = t := Host.Outcome.next.inj (hu.symm.trans h)
  exact heffect

/-- Settles O10: each event of the host has a next state, and `exec` ends in `finish`. -/
theorem everyStepAnswersNext : Obligations.EveryStepAnswersNext := by
  refine ⟨fun s => ?_, fun i s => ?_⟩
  · obtain ⟨t, ht, -⟩ := exists_step_effect s
    exact ⟨t, ht⟩
  · obtain ⟨x, hx, -⟩ := exec_eq_finish i s
    rw [hx]
    exact finish_next s x

/-! ### The register invariant (10_state.md R24, R25, R27) -/

/-- The invariant speaks of RK, RKV, ST and STV only. -/
theorem RegistersValid.of_registers_eq {s t : State} (hv : RegistersValid s) (hrk : t.rk = s.rk)
    (hrkv : t.rkv = s.rkv) (hst : t.st = s.st) (hstv : t.stv = s.stv) : RegistersValid t where
  rkv_iff := by rw [hrkv, hrk, hv.rkv_iff]
  stv_iff := by rw [hstv, hst, hv.stv_iff]
  expanded k hk := hv.expanded k (hrk ▸ hk)

/-- With RK and ST unset and RKV = STV = 0 the invariant holds. -/
theorem RegistersValid.of_unset {s : State} (hrk : s.rk = none) (hrkv : s.rkv = false) (hst : s.st = none)
    (hstv : s.stv = false) : RegistersValid s where
  rkv_iff := by rw [hrkv, hrk]; rfl
  stv_iff := by rw [hstv, hst]; rfl
  expanded k hk := by rw [hrk] at hk; cases hk

/-- Settles O14: reset leaves all four registers unset and holds no payload. -/
theorem registersValidAtReset : Obligations.RegistersValidAtReset := ⟨.of_unset rfl rfl rfl rfl, rfl⟩

/-- The first two round keys give the key back (R103). -/
theorem keyBytesOf_roundKeysOf {key : Payload} (hkey : key.length = 32) : keyBytesOf (roundKeysOf key) = key := by
  obtain ⟨-, -, hlow, hhigh⟩ := roundKeysReshapeWords key hkey
  rw [keyBytesOf, hlow, hhigh, List.take_append_drop]

/-- SETKEY writes an expansion, LDST and the transformation commands write ST when STV is or becomes 1, and no other
command writes a register. -/
theorem CommandEffect.registersValid {i : Instr} {s : State} {c : Completion} (h : CommandEffect i s c)
    (hv : RegistersValid s) : RegistersValid c.state := by
  cases h with
  | keys _ hlen =>
    refine ⟨rfl, hv.stv_iff, fun k hk => ?_⟩
    obtain rfl : roundKeysOf s.input = k := Option.some.inj hk
    rw [keyBytesOf_roundKeysOf hlen]
  | load => exact ⟨hv.rkv_iff, rfl, hv.expanded⟩
  | transform t _ _ hstv => exact ⟨hv.rkv_iff, hstv, hv.expanded⟩
  | answer => exact hv

/-- Settles O15: by cases on what a step can do; only a completed command writes a register other than by reset. -/
theorem stepKeepsRegistersValid : Obligations.StepKeepsRegistersValid := by
  intro s t hv hbetween hstep
  cases stepEffect_of_next hstep with
  | idle => exact ⟨hv, hbetween⟩
  | reset rest => exact ⟨.of_unset rfl rfl rfl rfl, rfl⟩
  | failed rest p e => exact ⟨hv.of_registers_eq rfl rfl rfl rfl, rfl⟩
  | completed rest p h =>
    have hbegun := h.registersValid (hv.of_registers_eq rfl rfl rfl rfl)
    exact ⟨hbegun.of_registers_eq rfl rfl rfl rfl, rfl⟩

/-! ### The shape of the responses (30_encoding.md R45, 45_block_cipher.md R113, R114) -/

theorem responseValid_raise (e : Status) : ResponseValid ⟨e, [], []⟩ := ⟨fun _ => ⟨rfl, rfl⟩, .inl rfl⟩

/-- The trace of a completed command is empty, or one of the two traces of 56 entries. -/
theorem CommandEffect.responseValid {i : Instr} {s : State} {c : Completion} (h : CommandEffect i s c) :
    ResponseValid ⟨.ok, c.out, c.trace⟩ := by
  refine ⟨fun hfailed => absurd rfl hfailed, ?_⟩
  cases h with
  | keys | load | transform => exact .inl rfl
  | answer out tr _ _ htrace =>
    obtain rfl | ⟨b, k, rfl | rfl⟩ := htrace
    · exact .inl rfl
    · exact .inr (length_traceOf k encryptSchedule b)
    · exact .inr (length_traceOf k decryptSchedule b)

/-- Settles O16: a step delivers no response or one, and the one it delivers is well-shaped. -/
theorem stepKeepsResponsesValid : Obligations.StepKeepsResponsesValid := by
  intro s t hvalid hstep
  have happend {a : Response} (ha : ResponseValid a) : ∀ b ∈ s.outbox ++ [a], ResponseValid b :=
    List.forall_mem_append.mpr ⟨hvalid, List.forall_mem_singleton.mpr ha⟩
  cases stepEffect_of_next hstep with
  | idle => exact hvalid
  | reset rest => exact hvalid
  | failed rest p e => exact happend (responseValid_raise e)
  | completed rest p h =>
    obtain ⟨-, -, houtbox⟩ := h.host_unchanged
    rw [State.respond_outbox, houtbox]
    exact happend h.responseValid

end Sys2Proof.Machine
end

section
/-! Frames and non-interference (10_state.md R22, 20_memory.md R40, R41, 70_reset_and_hazards.md R156): which registers
a command writes, and which parts of the state it does not see. -/

namespace Sys2Proof.Machine

/-! ### The frame of a command (R22) -/

/-- An effect writes RK and RKV for SETKEY only, ST for LDST and the transformation commands only, STV for LDST only. -/
theorem CommandEffect.registers_unchanged {i : Instr} {s : State} {c : Completion} (h : CommandEffect i s c) :
    (i ≠ .setkey → c.state.rk = s.rk ∧ c.state.rkv = s.rkv) ∧ (writesStepState i = false → c.state.st = s.st) ∧
      (i ≠ .ldst → c.state.stv = s.stv) := by
  cases h with
  | keys hi => exact ⟨fun hne => absurd hi hne, fun _ => rfl, fun _ => rfl⟩
  | load hi =>
    exact ⟨fun _ => ⟨rfl, rfl⟩, fun hw => by simp [hi, writesStepState] at hw, fun hne => absurd hi hne⟩
  | transform t hwrites => exact ⟨fun _ => ⟨rfl, rfl⟩, fun hw => by simp [hwrites] at hw, fun _ => rfl⟩
  | answer => exact ⟨fun _ => ⟨rfl, rfl⟩, fun _ => rfl, fun _ => rfl⟩

theorem writesStepState_eq_false {i : Instr} (hi : i ∉ [.ldst, .subb, .isubb, .shr, .ishr, .mixc, .imixc])
    (haddrk : ∀ idx, i ≠ .addrk idx) : writesStepState i = false := by
  unfold writesStepState
  split <;> simp_all

/-- Settles O17: a failed command writes nothing, and a completed one only the registers of its effect. -/
theorem registersWrittenOnlyByTheirCommands : Obligations.RegistersWrittenOnlyByTheirCommands := by
  intro i s t hexec
  obtain ⟨e, he⟩ | ⟨c, heffect, hc⟩ := exec_cases i s
  · obtain rfl : s.raise e = t := Host.Outcome.next.inj (he.symm.trans hexec)
    exact ⟨fun _ => ⟨rfl, rfl⟩, fun _ _ => rfl, fun _ => rfl, rfl, rfl, rfl, _, rfl⟩
  · obtain rfl : c.state.respond ⟨.ok, c.out, c.trace⟩ = t := Host.Outcome.next.inj (hc.symm.trans hexec)
    obtain ⟨hkeys, hst, hstv⟩ := heffect.registers_unchanged
    obtain ⟨hcfg, hinbox, houtbox⟩ := heffect.host_unchanged
    exact ⟨hkeys, fun hi haddrk => hst (writesStepState_eq_false hi haddrk), hstv, hcfg, hinbox, rfl, _,
      by rw [State.respond_outbox, houtbox]⟩

/-! ### A change of the state that a command neither sees nor disturbs

Whether a command depends on a part of the state is one question for the host's stream, for ST and for RK: change that
part by some `g`. Every meaning is made of the payload check, the two register reads and the three register writes, so
a `g` that passes through those passes through the command. -/

/-- `g` changes nothing that `i` reads, and commutes with what `i` writes. -/
structure Unseen (i : Instr) (g : State → State) : Prop where
  takePayload : ∀ s, takePayload i (g s) = takePayload i s
  readKeys : readsKeys i = true → ∀ s, (g s).readKeys = s.readKeys
  readStepState : readsStepState i = true → ∀ s, (g s).readStepState = s.readStepState
  writeKeys : i = .setkey → ∀ s k, (g s).writeKeys k = g (s.writeKeys k)
  loadStepState : writesStepState i = true → ∀ s t, (g s).loadStepState t = g (s.loadStepState t)
  writeStepState : writesStepState i = true → ∀ s t, (g s).writeStepState t = g (s.writeStepState t)

/-- A completion with the change `g` of its state. -/
def Completion.mapState (g : State → State) (c : Completion) : Completion := { c with state := g c.state }

/-- A command answers the same after an unseen change, with that change carried along. -/
theorem exec_unseen {i : Instr} {g : State → State} (h : Unseen i g) (s : State) :
    ∃ x : Except Status Completion,
      exec i s = s.finish x ∧ exec i (g s) = (g s).finish (Completion.mapState g <$> x) := by
  cases i <;> refine ⟨_, rfl, ?_⟩
  case setkey =>
    simp only [exec, execSetkey, h.takePayload, h.writeKeys rfl, map_bind, map_pure, Completion.mapState]
  case ldst =>
    simp only [exec, execLdst, h.takePayload, h.loadStepState rfl, map_bind, map_pure, Completion.mapState]
  case addrk =>
    simp only [exec, execAddrk, h.takePayload, h.readKeys rfl, h.readStepState rfl, h.writeStepState rfl, map_bind,
      map_pure, Completion.mapState]
  case rdst =>
    simp only [exec, execRdst, h.takePayload, h.readStepState rfl, map_bind, map_pure, Completion.mapState]
  case subb | isubb | shr | ishr | mixc | imixc =>
    simp only [exec, execSubb, execIsubb, execShr, execIshr, execMixc, execImixc, State.transformStep, h.takePayload,
      h.readStepState rfl, h.writeStepState rfl, map_bind, map_pure, Completion.mapState]
  case rdrk | encb | decb | ecbe | ecbd =>
    simp only [exec, execRdrk, execEncb, execDecb, execEcbe, execEcbd, h.takePayload, h.readKeys rfl, map_bind,
      map_pure, Completion.mapState]
  case unpad =>
    simp only [exec, execUnpad, h.takePayload, map_bind]
    congr 2
    funext p
    cases unpadBytes p <;> rfl
  case rotw | subw =>
    simp only [exec, execRotw, execSubw, State.wordCommand, h.takePayload, map_bind, map_pure, Completion.mapState]
  case gfmul | rcon | pad =>
    simp only [exec, execGfmul, execRcon, execPad, h.takePayload, map_bind, map_pure, Completion.mapState]
  all_goals
    simp only [exec, execXt2, execXt3, execXt9, execXt11, execXt13, execXt14, execSbox, execIsbox, State.byteCommand,
      h.takePayload, map_bind, map_pure, Completion.mapState]

/-! ### The host's stream (60_exceptions.md R130, 20_memory.md R41) -/

/-- The state with another stream of events and other delivered responses. -/
def State.withHostStream (q : List HostEvent) (o : List Response) (s : State) : State :=
  { s with inbox := q, outbox := o }

theorem unseen_withHostStream (i : Instr) (q : List HostEvent) (o : List Response) :
    Unseen i (State.withHostStream q o) :=
  ⟨fun _ => rfl, fun _ _ => rfl, fun _ _ => rfl, fun _ _ _ => rfl, fun _ _ _ => rfl, fun _ _ _ => rfl⟩

/-- Settles O19: the one response is appended to whatever responses the state holds. -/
theorem outcomeIndependentOfHostStream : Obligations.OutcomeIndependentOfHostStream := by
  intro i s q o
  obtain ⟨a, t, hexec, hend⟩ := exec_endsCommand i s
  obtain ⟨x, hs, hchanged⟩ := exec_unseen (unseen_withHostStream i q o) s
  refine ⟨a, t, hexec, hend.outbox, hchanged.trans ?_⟩
  rw [hs] at hexec
  cases x with
  | error e =>
    cases hexec
    obtain ⟨-, rfl⟩ := List.append_singleton_inj.mp hend.outbox
    rfl
  | ok c =>
    cases hexec
    obtain ⟨-, rfl⟩ := List.append_singleton_inj.mp hend.outbox
    rfl

/-! ### Commands issued twice (20_memory.md R40) -/

/-- A command other than SETKEY and the writers of ST only delivers a response. -/
theorem exec_eq_respond {i : Instr} (hi : i ≠ .setkey) (hw : writesStepState i = false) (s : State) :
    ∃ a, exec i s = .next (s.respond a) := by
  obtain ⟨e, he⟩ | ⟨c, heffect, hc⟩ := exec_cases i s
  · exact ⟨_, he⟩
  · cases heffect with
    | keys hkeys => exact absurd hkeys hi
    | load hload => simp [hload, writesStepState] at hw
    | transform t hwrites => simp [hwrites] at hw
    | answer out tr => exact ⟨_, hc⟩

theorem exec_setkey_of_error {s : State} {e : Status} (hp : takePayload .setkey s = .error e) :
    exec .setkey s = .next (s.raise e) := by
  simp only [exec, execSetkey, hp, except_error_bind, State.finish_error]

theorem exec_setkey_of_ok {s : State} {p : Payload} (hp : takePayload .setkey s = .ok p) :
    exec .setkey s = .next ((s.writeKeys (roundKeysOf p)).respond ⟨.ok, [], []⟩) := by
  simp only [exec, execSetkey, hp, except_ok_bind, except_pure, State.finish_ok]

/-- The checks of the word and the payload read the parameters and the payload only. -/
theorem takePayload_congr (i : Instr) {s t : State} (hcfg : t.cfg = s.cfg) (hin : t.input = s.input) :
    takePayload i t = takePayload i s := by
  rw [takePayload, takePayload, hcfg, hin]

/-- Settles O18: the second command meets the first one's state but for the responses, which it does not see; SETKEY
meets other keys too, and writes over them. -/
theorem nonWritingCommandsIdempotent : Obligations.NonWritingCommandsIdempotent := by
  refine ⟨fun i s hi hw => ?_, fun s t hexec => ?_⟩
  · obtain ⟨a, hexec⟩ := exec_eq_respond hi hw s
    obtain ⟨b, t, hnext, hout, hagain⟩ := outcomeIndependentOfHostStream i s s.inbox (s.outbox ++ [a])
    obtain rfl : s.respond a = t := Host.Outcome.next.inj (hexec.symm.trans hnext)
    obtain ⟨-, rfl⟩ := List.append_singleton_inj.mp hout
    exact ⟨a, hexec, hagain⟩
  · obtain ⟨-, -, -, hcfg, -⟩ := registersWrittenOnlyByTheirCommands .setkey s t hexec
    have hsame : takePayload .setkey (t.accept s.input) = takePayload .setkey s := takePayload_congr .setkey hcfg rfl
    cases hp : takePayload .setkey s with
    | error e =>
      obtain rfl := Host.Outcome.next.inj ((exec_setkey_of_error hp).symm.trans hexec)
      exact ⟨_, exec_setkey_of_error (hsame.trans hp), rfl, rfl, rfl, rfl⟩
    | ok p =>
      obtain rfl := Host.Outcome.next.inj ((exec_setkey_of_ok hp).symm.trans hexec)
      exact ⟨_, exec_setkey_of_ok (hsame.trans hp), rfl, rfl, rfl, rfl⟩

/-! ### ST and RK (70_reset_and_hazards.md R156) -/

/-- An unseen change that also commutes with the end of a command is still there, and is all that differs, after it. -/
theorem exec_unseen_next {i : Instr} {g : State → State} (h : Unseen i g)
    (hrespond : ∀ s r, (g s).respond r = g (s.respond r)) {s t : State} (hexec : exec i s = .next t) :
    exec i (g s) = .next (g t) := by
  obtain ⟨x, hs, hchanged⟩ := exec_unseen h s
  rw [hs] at hexec
  rw [hchanged]
  cases x with
  | error e =>
    cases hexec
    exact congrArg Host.Outcome.next (hrespond s _)
  | ok c =>
    cases hexec
    exact congrArg Host.Outcome.next (hrespond c.state _)

/-- The state with another value of ST and STV. -/
def State.withStepState (x : Option CipherState) (y : Bool) (s : State) : State := { s with st := x, stv := y }

/-- The state with another value of RK and RKV. -/
def State.withKeys (x : Option RoundKeys) (y : Bool) (s : State) : State := { s with rk := x, rkv := y }

theorem unseen_withStepState {i : Instr} (hreads : readsStepState i = false) (hwrites : writesStepState i = false)
    (x : Option CipherState) (y : Bool) : Unseen i (State.withStepState x y) where
  takePayload _ := rfl
  readKeys _ _ := rfl
  readStepState h := by simp [hreads] at h
  writeKeys _ _ _ := rfl
  loadStepState h := by simp [hwrites] at h
  writeStepState h := by simp [hwrites] at h

theorem unseen_withKeys {i : Instr} (hreads : readsKeys i = false) (hwrites : i ≠ .setkey) (x : Option RoundKeys)
    (y : Bool) : Unseen i (State.withKeys x y) where
  takePayload _ := rfl
  readKeys h := by simp [hreads] at h
  readStepState _ _ := rfl
  writeKeys h := absurd h hwrites
  loadStepState _ _ _ := rfl
  writeStepState _ _ _ := rfl

/-- Settles O20: other values of ST and STV are an unseen change for a command that does not read or write ST, and so
are other values of RK and RKV for one that does not read or write RK. -/
theorem stepStateAndKeysIndependent : Obligations.StepStateAndKeysIndependent :=
  ⟨fun _ _ _ x y hreads hwrites => exec_unseen_next (unseen_withStepState hreads hwrites x y) fun _ _ => rfl,
    fun _ _ _ x y hreads hwrites => exec_unseen_next (unseen_withKeys hreads hwrites x y) fun _ _ => rfl⟩

/-! ### The trace bit (45_block_cipher.md R115) -/

/-- Commands with the same decode check, payload form and wrong-length status take the same payloads. -/
theorem takePayload_eq_of_same_checks {i j : Instr} {s : State} (hwf : i.wf s.cfg = j.wf s.cfg)
    (hform : payloadForm i = payloadForm j) (hstatus : wrongLengthStatus i = wrongLengthStatus j) :
    takePayload i s = takePayload j s := by
  simp only [takePayload, hwf, hform, hstatus]

/-- Two block commands that take the same payloads and compute the same function differ in the trace only. -/
theorem finish_blockCommand_trace {i j : Instr} {s : State} (hp : takePayload i s = takePayload j s)
    (f : Block → RoundKeys → Block) (trace : Block → RoundKeys → List Block) :
    ∃ e out tr, s.finish (s.blockCommand i f fun _ _ => []) = .next (s.respond ⟨e, out, []⟩) ∧
      s.finish (s.blockCommand j f trace) = .next (s.respond ⟨e, out, tr⟩) := by
  unfold State.blockCommand
  rw [hp]
  cases takePayload j s with
  | error e => exact ⟨e, [], [], rfl, rfl⟩
  | ok p =>
    cases s.readKeys with
    | error e => exact ⟨e, [], [], rfl, rfl⟩
    | ok k => exact ⟨.ok, _, _, rfl, rfl⟩

/-- Settles O51: with `INSTR` the decode check lets TR = 0 and TR = 1 through alike, and only the trace reads TR. -/
theorem traceChangesNothingElse : Obligations.TraceChangesNothingElse := by
  intro s hinstr
  have hlegal : traceLegal s.cfg false = traceLegal s.cfg true := by simp [traceLegal, hinstr]
  have hencb : takePayload (.encb false) s = takePayload (.encb true) s :=
    takePayload_eq_of_same_checks hlegal rfl rfl
  have hdecb : takePayload (.decb false) s = takePayload (.decb true) s :=
    takePayload_eq_of_same_checks hlegal rfl rfl
  simp only [List.forall_mem_cons]
  exact ⟨finish_blockCommand_trace hencb encryptBlock encryptTrace,
    finish_blockCommand_trace hdecb decryptBlock decryptTrace, List.forall_mem_nil _⟩

end Sys2Proof.Machine
end

section
/-! Facts of the cipher's mathematics: products as sums of doublings (41_gf_arith.md R61), the construction of the S-box
(42_constants.md R72), the key schedule's second SubWord (44_key_schedule.md R104) and the known answers. -/

namespace Sys2Proof.Machine

open Sys2Proof.Claims

/-! ### gfMultiply as a sum of doublings (R61) -/

/-- The accumulator `p` with `a` doubled `k` times added to it when bit `k` of `b` is 1. -/
def addDoubling (a b p : Byte) (k : Nat) : Byte := if b.getLsbD k then p ^^^ (times2^[k]) a else p

/-- Bit `k + 1` of `b` is bit `k` of the shifted `b`, and doubling `k + 1` times begins with doubling once. -/
theorem addDoubling_succ (a b p : Byte) (k : Nat) :
    addDoubling a b p (k + 1) = addDoubling (times2 a) (b >>> 1) p k := by
  simp only [addDoubling, BitVec.getLsbD_ushiftRight, Function.iterate_succ_apply, Nat.add_comm 1 k]

theorem gfLoop_eq_foldl (n : Nat) (a b p : Byte) : gfLoop n a b p = (List.range n).foldl (addDoubling a b) p := by
  induction n generalizing a b p with
  | zero => rfl
  | succ n ih =>
    rw [gfLoop, ih, List.range_succ_eq_map, List.foldl_cons, List.foldl_map]
    simp only [addDoubling_succ]
    rfl

/-- Settles O22: eight iterations of the loop are eight terms of the sum. -/
theorem gfMultiplyIsXorOfDoublings : Obligations.GfMultiplyIsXorOfDoublings := fun a b => gfLoop_eq_foldl 8 a b 0

/-! ### The construction of the S-box (R72) -/

/-- A right inverse and a left inverse in GF(2^8) are the same. -/
theorem eq_of_gfMultiply_eq_one {x y z : Byte} (hx : gfMultiply x y = 1) (hz : gfMultiply y z = 1) : x = z := by
  calc x = gfMultiply x (gfMultiply y z) := by rw [hz, gfMultiply_one_right]
    _ = gfMultiply (gfMultiply x y) z := (gfMultiply_assoc x y z).symm
    _ = z := by rw [hx, gfMultiply_one_left]

/-- INVSBOX after the affine map, compared at every byte: it is the inverse in GF(2^8). -/
theorem gfMultiply_invSboxRom_affineMap :
    ∀ y : Byte, y ≠ 0 → gfMultiply y (invSboxRom (affineMap y)) = 1 := by decide

theorem ne_zero_of_gfMultiply_eq_one {x y : Byte} (h : gfMultiply x y = 1) : y ≠ 0 := by
  rintro rfl
  rw [gfMultiply_zero_right] at h
  exact absurd h (by decide)

/-- Settles O28: inverses are unique, so INVSBOX takes the affine map of `y` to `x`. -/
theorem sboxIsAffineMapOfInverse : Obligations.SboxIsAffineMapOfInverse := by
  refine ⟨by decide, fun x y hxy => ?_⟩
  have hx : x = invSboxRom (affineMap y) :=
    eq_of_gfMultiply_eq_one hxy (gfMultiply_invSboxRom_affineMap y (ne_zero_of_gfMultiply_eq_one hxy))
  rw [hx, sboxRom_invSboxRom]

/-! ### SubWord at i mod 8 = 4 (R104) -/

/-- SubWord has no fixed point, because the S-box has none. -/
theorem subWord_ne_self (w : Word) : subWord w ≠ w := fun h => sboxRom_ne_self w.b0 (congrArg Word.b0 h)

theorem Word.xor_right_cancel {a b c : Word} (h : a.xor c = b.xor c) : a = b := by
  obtain ⟨_, _, _, _⟩ := a
  obtain ⟨_, _, _, _⟩ := b
  simpa [Word.xor] using h

/-- Settles O43: word 12 is SubWord of word 11, xor word 4. -/
theorem middleSubWordChangesWordTwelve : Obligations.MiddleSubWordChangesWordTwelve := by
  intro key _ h
  have hstep : (expandKey key).getD 12 .zero
      = (subWord ((expandKey key).getD 11 .zero)).xor ((expandKey key).getD 4 .zero) :=
    expandKey_getD_of_ge key (by decide) (by decide)
  exact subWord_ne_self _ (Word.xor_right_cancel (hstep.symm.trans h))

/-! ### Known answers (95_test_vectors.md 1.1 and 2.6) -/

/-- A ciphertext of `encryptBlock` decrypts to its plaintext (R112). -/
theorem decryptBlock_of_encryptBlock_eq {b d : Block} {rk : RoundKeys} (h : encryptBlock b rk = d) :
    decryptBlock d rk = b := by
  obtain ⟨hback, -⟩ := blockCipherRoundTrip b rk
  rw [← h, hback]

/-- Settles O53: the two encryptions run; their decryptions follow from the round trip. -/
theorem knownAnswerVectors : Obligations.KnownAnswerVectors := by
  simp only [Obligations.KnownAnswerVectors, List.forall_mem_cons]
  refine ⟨?_, ?_, List.forall_mem_nil _⟩
  · have henc : encryptBlock (blockOfBytes (bytesOfNumber 16 0x6bc1bee22e409f96e93d7e117393172a))
        (roundKeysOf (bytesOfNumber 32 0x603deb1015ca71be2b73aef0857d77811f352c073b6108d72d9810a30914dff4))
        = blockOfBytes (bytesOfNumber 16 0xf3eed1bdb5d2a03c064b5a7e3db181f8) := by decide +kernel
    exact ⟨henc, decryptBlock_of_encryptBlock_eq henc⟩
  · have henc : encryptBlock (blockOfBytes (bytesOfNumber 16 0x00112233445566778899aabbccddeeff))
        (roundKeysOf (bytesOfNumber 32 0x000102030405060708090a0b0c0d0e0f101112131415161718191a1b1c1d1e1f))
        = blockOfBytes (bytesOfNumber 16 0x8ea2b7ca516745bfeafc49904b496089) := by decide +kernel
    exact ⟨henc, decryptBlock_of_encryptBlock_eq henc⟩

end Sys2Proof.Machine
end
